-- ==== Sys2Proof/Word.lean ====
section
/-! DEFINITION. The byte, the unit every buffer of the codec is made of (R12). -/

namespace Sys2Proof

/-- One byte, 8 bits; bit 0 is the least significant (R11, R12). -/
abbrev Byte := BitVec 8

end Sys2Proof
end

