-- ==== Sys2Proof/Config.lean ====
section
/-! DEFINITION. The build-time parameters of R8 with their constraints and defaults, and the free values: what
the spec says carries "no defined value" (R38, R40). A free value is an opaque constant, so that nothing can be
proved of it; every claim holds whatever it is. -/

namespace Sys2Proof

/-- The implementation parameters of R8. The constraint column of that table stands here as proof fields, so a set
of parameters that the spec rules out cannot be written. -/
structure Params where
  cwVersion : Nat
  cwIhl     : Nat
  cwDscp    : Nat
  cwEcn     : Nat
  cwFlags   : Nat
  cwFrag    : Nat
  optCap    : Nat
  lenMax    : Nat
  decWin    : Nat
  versionFits : 4 ≤ cwVersion
  ihlFits     : 4 ≤ cwIhl
  dscpFits    : 6 ≤ cwDscp
  ecnFits     : 2 ≤ cwEcn
  flagsFits   : 3 ≤ cwFlags
  fragFits    : 13 ≤ cwFrag
  optCapFits  : 40 ≤ optCap
  lenMaxFits  : 60 ≤ lenMax
  decWinFits  : 60 ≤ decWin

namespace Config

/-- The defaults of R8 (DESIGN CHOICE 1: the machine of `core` is built with them; ENCODE, DECODE and their laws are
written for every `Params`). -/
abbrev params : Params where
  cwVersion := 8
  cwIhl     := 8
  cwDscp    := 8
  cwEcn     := 8
  cwFlags   := 8
  cwFrag    := 16
  optCap    := 40
  lenMax    := 65535
  decWin    := 60
  versionFits := by decide
  ihlFits     := by decide
  dscpFits    := by decide
  ecnFits     := by decide
  flagsFits   := by decide
  fragFits    := by decide
  optCapFits  := by decide
  lenMaxFits  := by decide
  decWinFits  := by decide

/-- FREE VALUE (log entry 2): `freeBits c k w` is what output port number `k`, of width `w`, carries while it has no
defined value; `c` is the state's counter `freeCtr` (R38, R40, R252). -/
opaque freeBits : (c k w : Nat) → BitVec w

/-- FREE VALUE (log entry 2): the bytes, and their number, that a byte-array output port shows while it has no defined
value; `c` is `freeCtr`, `k` the port (R38, R40). -/
opaque freeBytes : (c k : Nat) → List Byte

/-- FREE VALUE (log entry 2): what byte-array output port `k` carries at offset `i`, at or past the length it is given
with; `c` is `freeCtr` (R38, U7). -/
opaque freePadByte : (c k i : Nat) → Byte

/-- FREE VALUE (log entry 3): what a new buffer (R120, "W <- new buffer") holds at offset `i` before it is written. -/
opaque newByte : (c i : Nat) → Byte

/-- FREE VALUE (log entry 4): what a read at offset `i` at or past the end of a buffer would give; R58 says that no such
read is ever made. -/
opaque absentByte : (i : Nat) → Byte

end Config

end Sys2Proof
end

