-- ==== Sys2Proof/Header.lean ====
section
/-! DEFINITION. The Header record H, "the sole entity" of the data model (R23): fourteen fields, the thirteen scalar
ones at their container widths, the options a sequence of bytes with its length. Equality is field by field (R28). -/

namespace Sys2Proof

/-- The Header record (R23), at the container widths of `p` (R8, R9). A plain value with no identity beyond its field
values (R27). -/
structure Header (p : Params) where
  version            : BitVec p.cwVersion
  headerLength       : BitVec p.cwIhl
  dscp               : BitVec p.cwDscp
  ecn                : BitVec p.cwEcn
  totalLength        : BitVec 16
  identification     : BitVec 16
  flags              : BitVec p.cwFlags
  fragmentOffset     : BitVec p.cwFrag
  ttl                : BitVec 8
  protocol           : BitVec 8
  headerChecksum     : BitVec 16
  sourceAddress      : BitVec 32
  destinationAddress : BitVec 32
  options            : List Byte
  deriving DecidableEq, Repr

/-- The Header whose thirteen scalar fields are 0 and whose options are empty: what R106 gives a field left out of the
notation. -/
def Header.zero (p : Params) : Header p where
  version            := 0
  headerLength       := 0
  dscp               := 0
  ecn                := 0
  totalLength        := 0
  identification     := 0
  flags              := 0
  fragmentOffset     := 0
  ttl                := 0
  protocol           := 0
  headerChecksum     := 0
  sourceAddress      := 0
  destinationAddress := 0
  options            := []

/-- `trunc_N(v)` inside a container that stays as wide as it was: the low `n` bits of `v`, zeros above (R11, R197). -/
def keepLow {w : Nat} (n : Nat) (v : BitVec w) : BitVec w := BitVec.ofNat w (v.toNat % 2 ^ n)

/-- `norm(H)` (R197): the six narrow fields reduced to their semantic widths, everything else as it is. -/
def Header.norm {p : Params} (h : Header p) : Header p :=
  { h with
    version        := keepLow 4 h.version
    headerLength   := keepLow 4 h.headerLength
    dscp           := keepLow 6 h.dscp
    ecn            := keepLow 2 h.ecn
    flags          := keepLow 3 h.flags
    fragmentOffset := keepLow 13 h.fragmentOffset }

end Sys2Proof
end

