-- ==== Sys2Proof/Syntax.lean ====
section
/-! DEFINITION. What a caller presents and what the codec executes: the two operations of the command word (R80), the
steps they are made of, one for each row of wire fields of spec/opcode_table.json, and a transaction with its ports (R30,
R32). -/

namespace Sys2Proof

/-- The operand `op` of a transaction (R29). For a wire field it says which of the row's two rules is meant: its
`encode_rule` (a packing step of ENCODE) or its `decode_rule` (an extraction of DECODE). -/
inductive Op where
  | encode
  | decode
  deriving DecidableEq, Repr

/-- The fourteen fields, in the order of R23 and R84. -/
inductive Field where
  | version | headerLength | dscp | ecn | totalLength | identification | flags | fragmentOffset
  | ttl | protocol | headerChecksum | sourceAddress | destinationAddress | options
  deriving DecidableEq, Repr

/-- One constructor for each row of spec/opcode_table.json. `encode` and `decode` are the two operations a caller can
present (R2, R80); each of the others is one field's step inside an ENCODE or a DECODE. -/
inductive Instr where
  | encode
  | decode
  | version (op : Op)
  | headerLength (op : Op)
  | dscp (op : Op)
  | ecn (op : Op)
  | totalLength (op : Op)
  | identification (op : Op)
  | flags (op : Op)
  | fragmentOffset (op : Op)
  | ttl (op : Op)
  | protocol (op : Op)
  | headerChecksum (op : Op)
  | sourceAddress (op : Op)
  | destinationAddress (op : Op)
  | options (op : Op)
  deriving DecidableEq, Repr

/-- The step of field `f` in operation `op`. -/
def Field.step : Field → Op → Instr
  | .version            => .version
  | .headerLength       => .headerLength
  | .dscp               => .dscp
  | .ecn                => .ecn
  | .totalLength        => .totalLength
  | .identification     => .identification
  | .flags              => .flags
  | .fragmentOffset     => .fragmentOffset
  | .ttl                => .ttl
  | .protocol           => .protocol
  | .headerChecksum     => .headerChecksum
  | .sourceAddress      => .sourceAddress
  | .destinationAddress => .destinationAddress
  | .options            => .options

/-- All fourteen fields, in order. -/
def Field.all : List Field :=
  [.version, .headerLength, .dscp, .ecn, .totalLength, .identification, .flags, .fragmentOffset,
   .ttl, .protocol, .headerChecksum, .sourceAddress, .destinationAddress, .options]

/-- The words of the opcode table's rows. `command` is the hardware's one-bit command word (R80, R81), the only word a
caller can present (R225). `fieldStep` is the MODEL's name for a field row taken for one operation (DESIGN CHOICE 5; the
row has no command word): the operation, and the row's `encoding` pattern as a number, the field's positions 1 and every
other position 0, wire bit position 0 first (bit 167), the 160 positions of the fixed portion and then the eight of one
option byte. -/
inductive TableWord where
  | command (cmdOp : BitVec 1)
  | fieldStep (op : BitVec 1) (positions : BitVec 168)
  deriving DecidableEq, Repr

/-- One transaction as it stands on the input ports (R32): `cmd_op`, one bit, so that it is an ENCODE or a DECODE and
nothing else (R2, R21, R225); the thirteen scalar operand ports and the option bytes (`header`, whose `options` are what
`h_options` carries), `h_options_len`, `w_bytes` and `w_len`. -/
structure Transaction where
  cmdOp      : BitVec 1
  header     : Header Config.params
  optionsLen : Nat
  wBytes     : List Byte
  wLen       : Nat
  deriving DecidableEq, Repr

end Sys2Proof
end

