-- ==== Sys2Proof/WellFormed.lean ====
section
/-! DEFINITION. The checks: a well-formed Header (R26), a table word that names a row of the table, and a
transaction that the ports of R32 can carry. Every term of `Instr` is well formed: the command word has no operand
field and both of its values are defined (R81), and a field's step has only its operation. -/

namespace Sys2Proof

/-- `WF(H)` (R26): the narrow fields in range, `header_length ≥ 5`, and the options exactly as long as
`header_length` says. The seven full-width scalars are in range by their containers (R9). -/
abbrev Header.WellFormed {p : Params} (h : Header p) : Prop :=
  h.version.toNat < 16 ∧ h.headerLength.toNat < 16 ∧ h.dscp.toNat < 64 ∧ h.ecn.toNat < 4 ∧ h.flags.toNat < 8 ∧
  h.fragmentOffset.toNat < 8192 ∧ 5 ≤ h.headerLength.toNat ∧
  h.options.length = 4 * (h.headerLength.toNat - 5)

/-- The field's first wire bit position (R84); for `options`, that of element 0. -/
def Field.first : Field → Nat
  | .version            => 0
  | .headerLength       => 4
  | .dscp               => 8
  | .ecn                => 14
  | .totalLength        => 16
  | .identification     => 32
  | .flags              => 48
  | .fragmentOffset     => 51
  | .ttl                => 64
  | .protocol           => 72
  | .headerChecksum     => 80
  | .sourceAddress      => 96
  | .destinationAddress => 128
  | .options            => 160

/-- The field's semantic width in bits (R23, R84); for `options`, that of one element. -/
def Field.width : Field → Nat
  | .version            => 4
  | .headerLength       => 4
  | .dscp               => 6
  | .ecn                => 2
  | .totalLength        => 16
  | .identification     => 16
  | .flags              => 3
  | .fragmentOffset     => 13
  | .ttl                => 8
  | .protocol           => 8
  | .headerChecksum     => 16
  | .sourceAddress      => 32
  | .destinationAddress => 32
  | .options            => 8

/-- Whether wire bit position `k` is one of the field's (R84). -/
def Field.covers (f : Field) (k : Nat) : Bool := f.first ≤ k && k < f.first + f.width

/-- A table word names a row: every command word does (R81); a field step does when its positions are those of
exactly one field. -/
def TableWord.wellFormed : TableWord → Bool
  | .command _ => true
  | .fieldStep _ positions =>
    Field.all.any fun f => (List.range 168).all fun k => positions.getMsbD k == f.covers k

/-- The ports of an instance built with `p` can carry the transaction (R32, U4, U5): the arrays have their port sizes
and the two lengths are ones that can be told. -/
abbrev Transaction.FitsPorts (p : Params) (t : Transaction) : Prop :=
  t.header.options.length = p.optCap ∧ t.optionsLen ≤ p.optCap ∧ t.wBytes.length = p.decWin ∧ t.wLen ≤ p.lenMax

end Sys2Proof
end

