-- ==== Sys2Proof/Decode.lean ====
section
/-! DEFINITION. From the words of the opcode table to instructions, and back. The command word is the one bit of R80 and
the only word the codec decodes; a field row is named by its position pattern (spec/opcode_table.json,
`field_mask_over_fixed_portion`; log entry 5), which nothing can present to the codec (R225).
(The codec's own DECODE, of wire bytes, is in Machine/Operands.lean.) -/

namespace Sys2Proof

/-- Why a table word names no row. A command word always names one (R81). -/
inductive DecodeReject where
  /-- The positions of a field step are those of no field row of the table. -/
  | noFieldRow
  deriving DecidableEq, Repr

/-- The positions of each field as spec/opcode_table.json gives them: `field_mask_over_fixed_portion`, then the eight
positions of one option byte. -/
def Field.positions : Field → BitVec 168
  | .version            => 0xF00000000000000000000000000000000000000000#168
  | .headerLength       => 0x0F0000000000000000000000000000000000000000#168
  | .dscp               => 0x00FC00000000000000000000000000000000000000#168
  | .ecn                => 0x000300000000000000000000000000000000000000#168
  | .totalLength        => 0x0000FFFF0000000000000000000000000000000000#168
  | .identification     => 0x00000000FFFF000000000000000000000000000000#168
  | .flags              => 0x000000000000E00000000000000000000000000000#168
  | .fragmentOffset     => 0x0000000000001FFF00000000000000000000000000#168
  | .ttl                => 0x0000000000000000FF000000000000000000000000#168
  | .protocol           => 0x000000000000000000FF0000000000000000000000#168
  | .headerChecksum     => 0x00000000000000000000FFFF000000000000000000#168
  | .sourceAddress      => 0x000000000000000000000000FFFFFFFF0000000000#168
  | .destinationAddress => 0x00000000000000000000000000000000FFFFFFFF00#168
  | .options            => 0x0000000000000000000000000000000000000000FF#168

/-- The operation that one bit selects: 0 ENCODE, 1 DECODE (R80). -/
def Op.ofBit (b : BitVec 1) : Op := if b = 0#1 then .encode else .decode

/-- The bit that selects an operation (R80). -/
def Op.bit : Op → BitVec 1
  | .encode => 0#1
  | .decode => 1#1

/-- The codec's decoder of the command port: both values of the one bit are defined, and nothing but ENCODE and DECODE can
be asked for (R80, R81, R225). -/
def decodeCommand (cmdOp : BitVec 1) : Instr :=
  match Op.ofBit cmdOp with
  | .encode => .encode
  | .decode => .decode

/-- The rows of the table that words name, total on every table word: command words by R80, field rows by their pattern. -/
def decode : TableWord → Except DecodeReject Instr
  | .command b => .ok (decodeCommand b)
  | .fieldStep b positions =>
    match Field.all.find? (fun f => f.positions = positions) with
    | some f => .ok (f.step (Op.ofBit b))
    | none   => .error .noFieldRow

/-- The encoder: the word of each instruction, from the same tables. -/
def encodeWord : Instr → TableWord
  | .encode                => .command 0#1
  | .decode                => .command 1#1
  | .version op            => .fieldStep op.bit Field.version.positions
  | .headerLength op       => .fieldStep op.bit Field.headerLength.positions
  | .dscp op               => .fieldStep op.bit Field.dscp.positions
  | .ecn op                => .fieldStep op.bit Field.ecn.positions
  | .totalLength op        => .fieldStep op.bit Field.totalLength.positions
  | .identification op     => .fieldStep op.bit Field.identification.positions
  | .flags op              => .fieldStep op.bit Field.flags.positions
  | .fragmentOffset op     => .fieldStep op.bit Field.fragmentOffset.positions
  | .ttl op                => .fieldStep op.bit Field.ttl.positions
  | .protocol op           => .fieldStep op.bit Field.protocol.positions
  | .headerChecksum op     => .fieldStep op.bit Field.headerChecksum.positions
  | .sourceAddress op      => .fieldStep op.bit Field.sourceAddress.positions
  | .destinationAddress op => .fieldStep op.bit Field.destinationAddress.positions
  | .options op            => .fieldStep op.bit Field.options.positions

/-- The command word that `nbits` bits of the table's numbering stand for: bit 0 of a word of at most one byte (R80; the
byte's other bits are no part of it). A longer word has no place on the one-bit command port (R81), and the field rows of
the table have no command word (match and mask 0, R108). -/
def commandOfTableWord (nbits w : Nat) : Option (BitVec 1) :=
  if nbits ≤ 8 then some (BitVec.ofNat 1 w) else none

/-- The instruction the decoder reads from an instruction whose bits are `w`. -/
def decodeTableWord (nbits w : Nat) : Option Instr :=
  (commandOfTableWord nbits w).map decodeCommand

end Sys2Proof
end

