-- ==== Sys2Proof/Machine/State.lean ====
section
/-! DEFINITION. The state: what the caller has presented and been given, the operands and the result of the transaction
at hand, and the buffer W and the record H that the pseudocode of R120 and R150 builds. The codec itself keeps nothing
between transactions (R7, R22): when a transaction's step ends, its operands, buffer, record and result are gone from the
codec (`release` in Machine/Ops.lean) and only the caller has the result (R244). Buffers are lists of bytes (DEDUCED 8). -/

namespace Sys2Proof.Machine

/-- The three error kinds of DECODE (R210); they carry no payload (R215). -/
inductive DecodeError where
  | tooShort
  | invalidHeaderLength
  | tooShortForOptions
  deriving DecidableEq, Repr

/-- The status of a transaction (R31): one of four values. -/
inductive Status where
  | ok
  | tooShort
  | invalidHeaderLength
  | tooShortForOptions
  deriving DecidableEq, Repr

/-- The result of a transaction (R30, R38): the wire buffer of an ENCODE, the Header of a successful DECODE, or one
error and nothing else. -/
inductive Result where
  | encoded (w : List Byte)
  | decoded (h : Header Config.params)
  | failed (e : DecodeError)
  deriving DecidableEq, Repr

/-- Faults of the machine: there are none. "No input makes the codec fault, get stuck, refuse or hang" (R220); the
three errors of DECODE are results. -/
inductive Fault where
  deriving DecidableEq, Repr

/-- Why an instruction would be refused; none is (R220). -/
inductive Refusal where
  /-- An instruction of the table that the model gives no meaning; raised by an arm of `exec` (no arm does). Safe. -/
  | notModelled (mnemonic : String)
  deriving DecidableEq, Repr

/-- The machine. -/
structure State where
  /-- The transactions the caller has still to present, next one first (R244). -/
  program : List Transaction
  /-- The operand Header record H of the transaction at hand (R23, R30; ports h_version to h_options_len). -/
  hIn     : Header Config.params
  /-- The operand wire buffer W of the transaction at hand (R30, R50; ports w_bytes and w_len). -/
  wIn     : List Byte
  /-- The result of the transaction at hand, on the output ports; `none` while no result is valid (R31, R40). -/
  result  : Option Result
  /-- The buffer W that ENCODE's steps write (R120). -/
  wOut    : List Byte
  /-- The record H that DECODE's steps write (R150). -/
  hOut    : Header Config.params
  /-- The results delivered so far, oldest first: "the state at the end of a run is the list of results" (R244). -/
  results : List Result
  /-- The MODEL's own: the counter the free values are applied to, advanced by every step (log entry 2). -/
  freeCtr : Nat
  deriving DecidableEq, Repr

/-- The machine after reset (R40, R240): idle, no transaction presented, no result valid. The spec gives no reset value
for any other field; they are empty or zero (DESIGN CHOICE 6). -/
def State.reset : State where
  program := []
  hIn     := Header.zero Config.params
  wIn     := []
  result  := none
  wOut    := []
  hOut    := Header.zero Config.params
  results := []
  freeCtr := 0

end Sys2Proof.Machine
end

