-- ==== Sys2Proof/Machine/Flags.lean ====
section
/-! DEFINITION. The status of a transaction, the only flag-like value of the codec (R31). It has no condition codes and
no sticky error flag, and no operation writes one as a side effect (R34). -/

namespace Sys2Proof.Machine

/-- The numeric status codes of R101, two bits wide (R32). -/
def Status.code : Status → BitVec 2
  | .ok                  => 0#2
  | .tooShort            => 1#2
  | .invalidHeaderLength => 2#2
  | .tooShortForOptions  => 3#2

/-- The status that reports an error (R31, R210). -/
def DecodeError.status : DecodeError → Status
  | .tooShort            => .tooShort
  | .invalidHeaderLength => .invalidHeaderLength
  | .tooShortForOptions  => .tooShortForOptions

/-- The status a result comes with: an ENCODE is always `OK` (R31, R136). -/
def Result.status : Result → Status
  | .encoded _ => .ok
  | .decoded _ => .ok
  | .failed e  => e.status

end Sys2Proof.Machine
end

