-- ==== Sys2Proof/Machine/Operands.lean ====
section
/-! DEFINITION. The byte accesses of R13 and R59 and every expression of the wire format: the pack and unpack
expression of each field (R85 to R98), ENCODE (R120) and DECODE (R150) as functions of their operands. They are written
for every choice of the parameters of R8. -/

namespace Sys2Proof.Machine

/-! ### MemRead and MemWrite (R13): big-endian, 1, 2 or 4 bytes (R53, R59) -/

/-- `MemRead(a, 1)`. -/
def memRead1 (w : List Byte) (a : Nat) : Byte := w.getD a (Config.absentByte a)

/-- `MemRead(a, 2)`: `W[a] ∥ W[a+1]`. -/
def memRead2 (w : List Byte) (a : Nat) : BitVec 16 := memRead1 w a ++ memRead1 w (a + 1)

/-- `MemRead(a, 4)`: `W[a] ∥ W[a+1] ∥ W[a+2] ∥ W[a+3]`. -/
def memRead4 (w : List Byte) (a : Nat) : BitVec 32 := memRead2 w a ++ memRead2 w (a + 2)

/-- `MemWrite(a, 1, v)`. A write past the end of the buffer writes nothing; none is made (R58). -/
def memWrite1 (w : List Byte) (a : Nat) (v : Byte) : List Byte := w.set a v

/-- `MemWrite(a, 2, v)`: most significant byte first. -/
def memWrite2 (w : List Byte) (a : Nat) (v : BitVec 16) : List Byte :=
  memWrite1 (memWrite1 w a (v.extractLsb' 8 8)) (a + 1) (v.extractLsb' 0 8)

/-- `MemWrite(a, 4, v)`: most significant byte first. -/
def memWrite4 (w : List Byte) (a : Nat) (v : BitVec 32) : List Byte :=
  memWrite2 (memWrite2 w a (v.extractLsb' 16 16)) (a + 2) (v.extractLsb' 0 16)

/-- The byte `b` with its bits `lo + k − 1` down to `lo` replaced by `v`. -/
def insertBits {k : Nat} (b : Byte) (lo : Nat) (v : BitVec k) : Byte :=
  (b &&& ~~~((BitVec.allOnes k).setWidth 8 <<< lo)) ||| (v.setWidth 8 <<< lo)

/-- `W[a][lo+k−1 : lo] <- v`, the other bits of the byte as they were. -/
def writeBits {k : Nat} (w : List Byte) (a lo : Nat) (v : BitVec k) : List Byte :=
  memWrite1 w a (insertBits (memRead1 w a) lo v)

/-- A buffer of exactly `n` bytes that keeps what `w` has and is new beyond it (R120, "new buffer of 20 + n bytes"); `c`
is the counter of the free values. -/
def fitBuffer (c n : Nat) (w : List Byte) : List Byte :=
  w.take n ++ (List.range' w.length (n - w.length)).map (Config.newByte c)

/-! ### The three shared groups of ENCODE (R122, R123, R126): unsigned arithmetic, then `trunc` -/

/-- R122: `trunc_8((version << 4) | (header_length & 0xF))`. -/
def packByte0 {m n : Nat} (version : BitVec m) (headerLength : BitVec n) : Byte :=
  BitVec.ofNat 8 ((version.toNat <<< 4) ||| (headerLength.toNat &&& 0xF))

/-- R123: `trunc_8((dscp << 2) | (ecn & 0x3))`. -/
def packByte1 {m n : Nat} (dscp : BitVec m) (ecn : BitVec n) : Byte :=
  BitVec.ofNat 8 ((dscp.toNat <<< 2) ||| (ecn.toNat &&& 0x3))

/-- R126: `trunc_16((flags << 13) | (fragment_offset & 0x1FFF))`. -/
def packBytes6 {m n : Nat} (flags : BitVec m) (fragmentOffset : BitVec n) : BitVec 16 :=
  BitVec.ofNat 16 ((flags.toNat <<< 13) ||| (fragmentOffset.toNat &&& 0x1FFF))

/-- R132: `for i in 0 .. n − 1: MemWrite(a + i, 1, OptRead(i))`. -/
def writeOptions (w : List Byte) (a : Nat) : List Byte → List Byte
  | []      => w
  | b :: bs => writeOptions (memWrite1 w a b) (a + 1) bs

/-- The eleven packing steps of R120, in its order, on a buffer that is there. -/
def packSteps {p : Params} (h : Header p) (w : List Byte) : List Byte :=
  let w := memWrite1 w 0 (packByte0 h.version h.headerLength)
  let w := memWrite1 w 1 (packByte1 h.dscp h.ecn)
  let w := memWrite2 w 2 h.totalLength
  let w := memWrite2 w 4 h.identification
  let w := memWrite2 w 6 (packBytes6 h.flags h.fragmentOffset)
  let w := memWrite1 w 8 h.ttl
  let w := memWrite1 w 9 h.protocol
  let w := memWrite2 w 10 h.headerChecksum
  let w := memWrite4 w 12 h.sourceAddress
  let w := memWrite4 w 16 h.destinationAddress
  writeOptions w 20 h.options

/-- ENCODE(H) (R120): a new buffer of `20 + len(H.options)` bytes and the eleven steps. -/
def encodeHeader {p : Params} (h : Header p) : List Byte :=
  packSteps h (fitBuffer 0 (20 + h.options.length) [])

/-! ### Pack, one field at a time (R85 to R98): only the field's own bits are written -/

/-- R85: `W[0][7:4] = trunc_4(H.version)`. -/
def packVersion {n : Nat} (w : List Byte) (v : BitVec n) : List Byte := writeBits w 0 4 (v.setWidth 4)

/-- R86: `W[0][3:0] = H.header_length & 0xF`. -/
def packHeaderLength {n : Nat} (w : List Byte) (v : BitVec n) : List Byte := writeBits w 0 0 (v.setWidth 4)

/-- R87: `W[1][7:2] = trunc_6(H.dscp)`. -/
def packDscp {n : Nat} (w : List Byte) (v : BitVec n) : List Byte := writeBits w 1 2 (v.setWidth 6)

/-- R88: `W[1][1:0] = H.ecn & 0x3`. -/
def packEcn {n : Nat} (w : List Byte) (v : BitVec n) : List Byte := writeBits w 1 0 (v.setWidth 2)

/-- R89: `MemWrite(2, 2, H.total_length)`. -/
def packTotalLength (w : List Byte) (v : BitVec 16) : List Byte := memWrite2 w 2 v

/-- R90: `MemWrite(4, 2, H.identification)`. -/
def packIdentification (w : List Byte) (v : BitVec 16) : List Byte := memWrite2 w 4 v

/-- R91: `W[6][7:5] = trunc_3(H.flags)`. -/
def packFlags {n : Nat} (w : List Byte) (v : BitVec n) : List Byte := writeBits w 6 5 (v.setWidth 3)

/-- R92: `W[6][4:0] = H.fragment_offset[12:8]`, `W[7] = H.fragment_offset[7:0]`. -/
def packFragmentOffset {n : Nat} (w : List Byte) (v : BitVec n) : List Byte :=
  memWrite1 (writeBits w 6 0 (v.extractLsb' 8 5)) 7 (v.extractLsb' 0 8)

/-- R93: `W[8] = H.ttl`. -/
def packTtl (w : List Byte) (v : BitVec 8) : List Byte := memWrite1 w 8 v

/-- R94: `W[9] = H.protocol`. -/
def packProtocol (w : List Byte) (v : BitVec 8) : List Byte := memWrite1 w 9 v

/-- R95: `MemWrite(10, 2, H.header_checksum)`, moved as it is. -/
def packHeaderChecksum (w : List Byte) (v : BitVec 16) : List Byte := memWrite2 w 10 v

/-- R96: `MemWrite(12, 4, H.source_address)`. -/
def packSourceAddress (w : List Byte) (v : BitVec 32) : List Byte := memWrite4 w 12 v

/-- R97: `MemWrite(16, 4, H.destination_address)`. -/
def packDestinationAddress (w : List Byte) (v : BitVec 32) : List Byte := memWrite4 w 16 v

/-- R98: `W[20 + i] = H.options[i]` for every i. -/
def packOptions (w : List Byte) (options : List Byte) : List Byte := writeOptions w 20 options

/-! ### Unpack, one field at a time (R153 to R165), zero-extended to the container (R39) -/

/-- R153: `W[0] >> 4`. -/
def unpackVersion (n : Nat) (w : List Byte) : BitVec n := (memRead1 w 0 >>> 4).setWidth n

/-- R154: `W[0] & 0xF`. -/
def unpackHeaderLength (n : Nat) (w : List Byte) : BitVec n := (memRead1 w 0 &&& 0xF#8).setWidth n

/-- R155: `W[1] >> 2`. -/
def unpackDscp (n : Nat) (w : List Byte) : BitVec n := (memRead1 w 1 >>> 2).setWidth n

/-- R156: `W[1] & 0x3`. -/
def unpackEcn (n : Nat) (w : List Byte) : BitVec n := (memRead1 w 1 &&& 0x3#8).setWidth n

/-- R157: `MemRead(2, 2)`. -/
def unpackTotalLength (w : List Byte) : BitVec 16 := memRead2 w 2

/-- R158: `MemRead(4, 2)`. -/
def unpackIdentification (w : List Byte) : BitVec 16 := memRead2 w 4

/-- R159: `W[6] >> 5`. -/
def unpackFlags (n : Nat) (w : List Byte) : BitVec n := (memRead1 w 6 >>> 5).setWidth n

/-- R160: `MemRead(6, 2) & 0x1FFF`. -/
def unpackFragmentOffset (n : Nat) (w : List Byte) : BitVec n := (memRead2 w 6 &&& 0x1FFF#16).setWidth n

/-- R161: `W[8]`. -/
def unpackTtl (w : List Byte) : BitVec 8 := memRead1 w 8

/-- R162: `W[9]`. -/
def unpackProtocol (w : List Byte) : BitVec 8 := memRead1 w 9

/-- R163: `MemRead(10, 2)`. -/
def unpackHeaderChecksum (w : List Byte) : BitVec 16 := memRead2 w 10

/-- R164: `MemRead(12, 4)`. -/
def unpackSourceAddress (w : List Byte) : BitVec 32 := memRead4 w 12

/-- R165: `MemRead(16, 4)`. -/
def unpackDestinationAddress (w : List Byte) : BitVec 32 := memRead4 w 16

/-- The `header_length` nibble as a number, `W[0] & 0xF` (R154, R173). -/
def headerWords (w : List Byte) : Nat := (memRead1 w 0 &&& 0xF#8).toNat

/-- R167: `4 × (header_length − 5)`, used only once `header_length ≥ 5` is known (R168, R253). -/
def optionsLen (w : List Byte) : Nat := 4 * (headerWords w - 5)

/-- R170: `n` bytes from offset 20, copied. -/
def unpackOptions (w : List Byte) (n : Nat) : List Byte := (List.range n).map fun i => memRead1 w (20 + i)

/-! ### DECODE's checks, in their order (R151, R216) -/

/-- Step 1 (R152). -/
def fixedPortionError (w : List Byte) : Option DecodeError :=
  if w.length < 20 then some .tooShort else none

/-- Steps 1, 3 and 4: the first check that fails (R152, R168, R169). The test of `header_length` comes before the
subtraction (R168). -/
def lengthError (w : List Byte) : Option DecodeError :=
  if w.length < 20 then some .tooShort
  else if headerWords w < 5 then some .invalidHeaderLength
  else if w.length < 20 + optionsLen w then some .tooShortForOptions
  else none

/-- Steps 2 and 5 (R153 to R165, R170): every field of the result. -/
def extractHeader (p : Params) (w : List Byte) : Header p where
  version            := unpackVersion p.cwVersion w
  headerLength       := unpackHeaderLength p.cwIhl w
  dscp               := unpackDscp p.cwDscp w
  ecn                := unpackEcn p.cwEcn w
  totalLength        := unpackTotalLength w
  identification     := unpackIdentification w
  flags              := unpackFlags p.cwFlags w
  fragmentOffset     := unpackFragmentOffset p.cwFrag w
  ttl                := unpackTtl w
  protocol           := unpackProtocol w
  headerChecksum     := unpackHeaderChecksum w
  sourceAddress      := unpackSourceAddress w
  destinationAddress := unpackDestinationAddress w
  options            := unpackOptions w (optionsLen w)

/-- DECODE(W) (R150), every result at the container widths of `p`: a Header or one error and nothing else (R172). -/
def decodeWire (p : Params) (w : List Byte) : Except DecodeError (Header p) :=
  match lengthError w with
  | some e => .error e
  | none   => .ok (extractHeader p w)

end Sys2Proof.Machine
end

