-- ==== Sys2Proof/Machine/Ops.lean ====
section
/-! DEFINITION. The shared operations over the state: presenting a transaction, delivering a result, raising an error
(the codec's only exceptional event), releasing the codec after a transaction, and one packing or extraction step. -/

namespace Sys2Proof.Machine

/-- The operand Header that the ports present: `h_options` cut to `h_options_len` bytes, the rest ignored (R32, U6;
DEDUCED 9). -/
def sampleHeader (t : Transaction) : Header Config.params :=
  { t.header with options := t.header.options.take t.optionsLen }

/-- The operand wire buffer that the ports present: `w_bytes` cut to `w_len` bytes, the rest ignored (R32, U6). A window
of 60 bytes and the length lose nothing (R176). -/
def sampleWire (t : Transaction) : List Byte := t.wBytes.take t.wLen

/-- The next transaction's operands on the codec, one snapshot of them (R60, R64), and `rest` still to come. -/
def present (t : Transaction) (rest : List Transaction) (s : State) : State :=
  { s with program := rest, hIn := sampleHeader t, wIn := sampleWire t }

/-- The counter of the free values moves on: a value that is not defined need not last. -/
def tick (s : State) : State := { s with freeCtr := s.freeCtr + 1 }

/-- A transaction ends with result `r`: it is valid on the ports and the caller has it in its list (R30, R244; DEDUCED
11). -/
def deliver (r : Result) (s : State) : State :=
  { s with result := some r, results := s.results ++ [r] }

/-- `raise <Error>` (R13, R214, R217): the transaction ends with the error as its whole result. Nothing is saved, no
control goes anywhere, and there is no return from it (R218). -/
def raise (e : DecodeError) (s : State) : State := deliver (.failed e) s

/-- After the result is delivered nothing of the transaction remains in the codec (R7, R22, R37): it is idle with no result
valid, as it was before the transaction (R244) and is after reset (R40; what an idle codec's fields hold is DESIGN CHOICE
6). What the caller has yet to present and what it has been given stay. -/
def release (s : State) : State :=
  { s with
    hIn    := Header.zero Config.params
    wIn    := []
    result := none
    wOut   := []
    hOut   := Header.zero Config.params }

/-- ENCODE returns: the buffer is the result. -/
def returnWire (w : List Byte) (s : State) : State := deliver (.encoded w) { s with wOut := w }

/-- DECODE returns: the record is the result. -/
def returnHeader (h : Header Config.params) (s : State) : State := deliver (.decoded h) { s with hOut := h }

/-- One packing step of an ENCODE (R122 to R132; DESIGN CHOICE 5): the result buffer has `20 + len(H.options)` bytes (R121), `f` writes its own
bits of it, and no result is valid until the operation returns (R40). -/
def packStep (f : List Byte → List Byte) (s : State) : State :=
  { s with wOut := f (fitBuffer s.freeCtr (20 + s.hIn.options.length) s.wOut), result := none }

/-- One extraction of a DECODE (R153 to R165, R170; DESIGN CHOICE 5): after the checks that stand before it have passed (`err` is the first that
fails), `f` writes its own field of the result record, and no result is valid until the operation returns (R40). -/
def unpackStep (err : Option DecodeError) (f : Header Config.params → Header Config.params) (s : State) : State :=
  match err with
  | some e => raise e s
  | none   => { s with hOut := f s.hOut, result := none }

end Sys2Proof.Machine
end

