-- ==== Sys2Proof/Machine/Command.lean ====
section
/-! DEFINITION. The two operations of the command word: ENCODE (R120) and DECODE (R150), each one atomic step (R7). -/

namespace Sys2Proof.Machine

/-- ENCODE (R120): the wire bytes of the operand Header, status `OK`, never an error (R136). -/
def execEncode (s : State) : Host.Outcome State Fault Refusal :=
  .next (returnWire (encodeHeader s.hIn) s)

/-- DECODE (R150): the Header of the operand buffer, or the first error in the order of R216. -/
def execDecode (s : State) : Host.Outcome State Fault Refusal :=
  match decodeWire Config.params s.wIn with
  | .ok h    => .next (returnHeader h s)
  | .error e => .next (raise e s)

end Sys2Proof.Machine
end

