-- ==== Sys2Proof/Machine/WireField.lean ====
section
/-! DEFINITION. The rows of the wire fields: each field's packing step in ENCODE and its extraction in DECODE, one step
of the operation (log entry 5). Step 1 of DECODE stands before every extraction (R151, R152); Steps 3 and 4
stand before that of the options (R168, R169). -/

namespace Sys2Proof.Machine

/-- `version` (R85): its packing step (R122) or its extraction (R153). -/
def execVersion (op : Op) (s : State) : Host.Outcome State Fault Refusal :=
  match op with
  | .encode => .next (packStep (fun w => packVersion w s.hIn.version) s)
  | .decode => .next (unpackStep (fixedPortionError s.wIn) (fun h => { h with version := unpackVersion _ s.wIn }) s)

/-- `headerLength` (R86): its packing step (R122) or its extraction (R154). -/
def execHeaderLength (op : Op) (s : State) : Host.Outcome State Fault Refusal :=
  match op with
  | .encode => .next (packStep (fun w => packHeaderLength w s.hIn.headerLength) s)
  | .decode => .next (unpackStep (fixedPortionError s.wIn) (fun h => { h with headerLength := unpackHeaderLength _ s.wIn }) s)

/-- `dscp` (R87): its packing step (R123) or its extraction (R155). -/
def execDscp (op : Op) (s : State) : Host.Outcome State Fault Refusal :=
  match op with
  | .encode => .next (packStep (fun w => packDscp w s.hIn.dscp) s)
  | .decode => .next (unpackStep (fixedPortionError s.wIn) (fun h => { h with dscp := unpackDscp _ s.wIn }) s)

/-- `ecn` (R88): its packing step (R123) or its extraction (R156). -/
def execEcn (op : Op) (s : State) : Host.Outcome State Fault Refusal :=
  match op with
  | .encode => .next (packStep (fun w => packEcn w s.hIn.ecn) s)
  | .decode => .next (unpackStep (fixedPortionError s.wIn) (fun h => { h with ecn := unpackEcn _ s.wIn }) s)

/-- `totalLength` (R89): its packing step (R124) or its extraction (R157). -/
def execTotalLength (op : Op) (s : State) : Host.Outcome State Fault Refusal :=
  match op with
  | .encode => .next (packStep (fun w => packTotalLength w s.hIn.totalLength) s)
  | .decode => .next (unpackStep (fixedPortionError s.wIn) (fun h => { h with totalLength := unpackTotalLength s.wIn }) s)

/-- `identification` (R90): its packing step (R125) or its extraction (R158). -/
def execIdentification (op : Op) (s : State) : Host.Outcome State Fault Refusal :=
  match op with
  | .encode => .next (packStep (fun w => packIdentification w s.hIn.identification) s)
  | .decode => .next (unpackStep (fixedPortionError s.wIn) (fun h => { h with identification := unpackIdentification s.wIn }) s)

/-- `flags` (R91): its packing step (R126) or its extraction (R159). -/
def execFlags (op : Op) (s : State) : Host.Outcome State Fault Refusal :=
  match op with
  | .encode => .next (packStep (fun w => packFlags w s.hIn.flags) s)
  | .decode => .next (unpackStep (fixedPortionError s.wIn) (fun h => { h with flags := unpackFlags _ s.wIn }) s)

/-- `fragmentOffset` (R92): its packing step (R126) or its extraction (R160). -/
def execFragmentOffset (op : Op) (s : State) : Host.Outcome State Fault Refusal :=
  match op with
  | .encode => .next (packStep (fun w => packFragmentOffset w s.hIn.fragmentOffset) s)
  | .decode => .next (unpackStep (fixedPortionError s.wIn) (fun h => { h with fragmentOffset := unpackFragmentOffset _ s.wIn }) s)

/-- `ttl` (R93): its packing step (R127) or its extraction (R161). -/
def execTtl (op : Op) (s : State) : Host.Outcome State Fault Refusal :=
  match op with
  | .encode => .next (packStep (fun w => packTtl w s.hIn.ttl) s)
  | .decode => .next (unpackStep (fixedPortionError s.wIn) (fun h => { h with ttl := unpackTtl s.wIn }) s)

/-- `protocol` (R94): its packing step (R128) or its extraction (R162). -/
def execProtocol (op : Op) (s : State) : Host.Outcome State Fault Refusal :=
  match op with
  | .encode => .next (packStep (fun w => packProtocol w s.hIn.protocol) s)
  | .decode => .next (unpackStep (fixedPortionError s.wIn) (fun h => { h with protocol := unpackProtocol s.wIn }) s)

/-- `headerChecksum` (R95): its packing step (R129) or its extraction (R163). -/
def execHeaderChecksum (op : Op) (s : State) : Host.Outcome State Fault Refusal :=
  match op with
  | .encode => .next (packStep (fun w => packHeaderChecksum w s.hIn.headerChecksum) s)
  | .decode => .next (unpackStep (fixedPortionError s.wIn) (fun h => { h with headerChecksum := unpackHeaderChecksum s.wIn }) s)

/-- `sourceAddress` (R96): its packing step (R130) or its extraction (R164). -/
def execSourceAddress (op : Op) (s : State) : Host.Outcome State Fault Refusal :=
  match op with
  | .encode => .next (packStep (fun w => packSourceAddress w s.hIn.sourceAddress) s)
  | .decode => .next (unpackStep (fixedPortionError s.wIn) (fun h => { h with sourceAddress := unpackSourceAddress s.wIn }) s)

/-- `destinationAddress` (R97): its packing step (R131) or its extraction (R165). -/
def execDestinationAddress (op : Op) (s : State) : Host.Outcome State Fault Refusal :=
  match op with
  | .encode => .next (packStep (fun w => packDestinationAddress w s.hIn.destinationAddress) s)
  | .decode => .next (unpackStep (fixedPortionError s.wIn) (fun h => { h with destinationAddress := unpackDestinationAddress s.wIn }) s)

/-- `options` (R98): the packing step R132, or the extraction R170 after the checks of R152, R168 and R169. -/
def execOptions (op : Op) (s : State) : Host.Outcome State Fault Refusal :=
  match op with
  | .encode => .next (packStep (fun w => packOptions w s.hIn.options) s)
  | .decode => .next (unpackStep (lengthError s.wIn) (fun h => { h with options := unpackOptions s.wIn (optionsLen s.wIn) }) s)

end Sys2Proof.Machine
end

