-- ==== Sys2Proof/Machine/Dispatch.lean ====
section
/-! DEFINITION. One arm for each row of spec/opcode_table.json. -/

namespace Sys2Proof.Machine

def exec (i : Instr) (s : State) : Host.Outcome State Fault Refusal :=
  match i with
  | .encode => Sys2Proof.Machine.execEncode s
  | .decode => Sys2Proof.Machine.execDecode s
  | .version op => Sys2Proof.Machine.execVersion op s
  | .headerLength op => Sys2Proof.Machine.execHeaderLength op s
  | .dscp op => Sys2Proof.Machine.execDscp op s
  | .ecn op => Sys2Proof.Machine.execEcn op s
  | .totalLength op => Sys2Proof.Machine.execTotalLength op s
  | .identification op => Sys2Proof.Machine.execIdentification op s
  | .flags op => Sys2Proof.Machine.execFlags op s
  | .fragmentOffset op => Sys2Proof.Machine.execFragmentOffset op s
  | .ttl op => Sys2Proof.Machine.execTtl op s
  | .protocol op => Sys2Proof.Machine.execProtocol op s
  | .headerChecksum op => Sys2Proof.Machine.execHeaderChecksum op s
  | .sourceAddress op => Sys2Proof.Machine.execSourceAddress op s
  | .destinationAddress op => Sys2Proof.Machine.execDestinationAddress op s
  | .options op => Sys2Proof.Machine.execOptions op s

end Sys2Proof.Machine
end

