-- ==== Sys2Proof/Machine/Ports.lean ====
section
/-! DEFINITION. The output ports of R32 as they read in a state; a result is on them in the state its instruction ends in. A port that carries no defined value (R38, R40, U2, U7)
reads as a free value. -/

namespace Sys2Proof.Machine

/-- A Header about which nothing is known. -/
def freeHeader (c : Nat) : Header Config.params where
  version            := Config.freeBits c 1 _
  headerLength       := Config.freeBits c 2 _
  dscp               := Config.freeBits c 3 _
  ecn                := Config.freeBits c 4 _
  totalLength        := Config.freeBits c 5 _
  identification     := Config.freeBits c 6 _
  flags              := Config.freeBits c 7 _
  fragmentOffset     := Config.freeBits c 8 _
  ttl                := Config.freeBits c 9 _
  protocol           := Config.freeBits c 10 _
  headerChecksum     := Config.freeBits c 11 _
  sourceAddress      := Config.freeBits c 12 _
  destinationAddress := Config.freeBits c 13 _
  options            := Config.freeBytes c 14

/-- `r_status`: the code of R101, free while no result is valid. -/
def portStatus (s : State) : BitVec 2 :=
  match s.result with
  | some r => r.status.code
  | none   => Config.freeBits s.freeCtr 0 2

/-- What `r_bytes` and `r_len` together give: the wire buffer of an ENCODE, free otherwise (R38). -/
def portWire (s : State) : List Byte :=
  match s.result with
  | some (.encoded w) => w
  | some (.decoded _) => Config.freeBytes s.freeCtr 15
  | some (.failed _)  => Config.freeBytes s.freeCtr 15
  | none              => Config.freeBytes s.freeCtr 15

/-- `r_len`. -/
def portLen (s : State) : Nat := (portWire s).length

/-- `r_bytes` at offset `i`; free at `r_len` and above (R38, U7). -/
def portByte (s : State) (i : Nat) : Byte := (portWire s).getD i (Config.freePadByte s.freeCtr 15 i)

/-- `r_version` to `r_destination_address`, with `r_options` and `r_options_len` together: the Header of a successful
DECODE, free otherwise (R38). -/
def portHeader (s : State) : Header Config.params :=
  match s.result with
  | some (.decoded h) => h
  | some (.encoded _) => freeHeader s.freeCtr
  | some (.failed _)  => freeHeader s.freeCtr
  | none              => freeHeader s.freeCtr

/-- `r_options_len`. -/
def portOptionsLen (s : State) : Nat := (portHeader s).options.length

/-- `r_options` at index `i`; free at `r_options_len` and above (R38, U7). -/
def portOption (s : State) (i : Nat) : Byte :=
  (portHeader s).options.getD i (Config.freePadByte s.freeCtr 14 i)

end Sys2Proof.Machine
end

