-- ==== Sys2Proof/Machine/Step.lean ====
section
/-! DEFINITION. One step: the next transaction the caller presents, as one atomic step (R7; DEDUCED 10); nothing when there
is none. -/

namespace Sys2Proof.Machine

/-- One transaction, whole: its operands are presented, its command word's instruction runs on them and delivers the
result, and nothing of it remains in the codec (R7, R244). -/
def transact (t : Transaction) (rest : List Transaction) (s : State) : Host.Outcome State Fault Refusal :=
  match exec (decodeCommand t.cmdOp) (tick (present t rest s)) with
  | .next u    => .next (release u)
  | .fault r   => .fault r
  | .refused r => .refused r

/-- One step. With no transaction presented the codec is idle (R40). -/
def step (s : State) : Host.Outcome State Fault Refusal :=
  match s.program with
  | []        => .next (tick s)
  | t :: rest => transact t rest s

/-- The instruction of bits `w` as the command word of the transaction that comes next; its operands are those it has, or
those the codec holds when no transaction is there (log entry 7). A word that is no command word is not placed. -/
def State.withFetchWord (s : State) (nbits w : Nat) : State :=
  match commandOfTableWord nbits w with
  | none   => s
  | some b =>
    match s.program with
    | []        => { s with program := [⟨b, s.hIn, s.hIn.options.length, s.wIn, s.wIn.length⟩] }
    | t :: rest => { s with program := { t with cmdOp := b } :: rest }

end Sys2Proof.Machine
end

