-- ==== Sys2Proof/Safety.lean ====
section
/-! DEFINITION. What counts as a safe run, and the terms the statements use. -/

namespace Sys2Proof.Machine

/-- The result that R120 and R150 give a command transaction, a function of its operands alone (R22). -/
def commandResult (b : BitVec 1) (h : Header Config.params) (w : List Byte) : Result :=
  match Op.ofBit b with
  | .encode => .encoded (encodeHeader h)
  | .decode =>
    match decodeWire Config.params w with
    | .ok h'   => .decoded h'
    | .error e => .failed e

/-- The result that a transaction has by R120 and R150. -/
def transactionResult (t : Transaction) : Result := commandResult t.cmdOp (sampleHeader t) (sampleWire t)

/-- Run instructions one after another on the operands at hand, stopping where one does not go on. -/
def runInstrs : List Instr → State → Host.Outcome State Fault Refusal
  | [], s => .next s
  | i :: is, s =>
    match exec i s with
    | .next t    => runInstrs is t
    | .fault r   => .fault r
    | .refused r => .refused r

/-- What a delivered result is always like: an encoded buffer has its 20 fixed bytes (R121), a decoded Header is well
formed (R171). -/
def Result.Sound : Result → Prop
  | .encoded w => 20 ≤ w.length
  | .decoded h => h.WellFormed
  | .failed _  => True

/-- The codec is idle: no operand, buffer, record or result of a transaction is in it (R22, R40; the values are those of
log entry 6). -/
abbrev State.Idle (s : State) : Prop :=
  s.hIn = Header.zero Config.params ∧ s.wIn = [] ∧ s.result = none ∧ s.wOut = [] ∧ s.hOut = Header.zero Config.params

/-- The invariant of a transaction: every result the caller has been given is sound, and a valid result on the ports is
the last one given and is what its buffer or record holds. -/
def State.ResultsAgree (s : State) : Prop :=
  (∀ r ∈ s.results, r.Sound) ∧
  (∀ r, s.result = some r → s.results.getLast? = some r) ∧
  (∀ w, s.result = some (.encoded w) → s.wOut = w) ∧
  (∀ h, s.result = some (.decoded h) → s.hOut = h)

/-- The machine invariant, between transactions: every result the caller has been given is sound, and the codec is idle. -/
def State.Inv (s : State) : Prop := (∀ r ∈ s.results, r.Sound) ∧ s.Idle

/-- A run of `k` steps is safe when it ends in a state: no fault and no refusal on the way. -/
def SafeRun (k : Nat) (s : State) : Prop := ∃ s', Host.Core.run Sys2Proof.core k s = .next s'

/-- The bit at wire bit position `k` (R12): position 0 is the most significant bit of byte 0. -/
def wireBit (w : List Byte) (k : Nat) : Bool := (memRead1 w (k / 8)).getMsbD (k % 8)

/-- The byte at offset `k` as a number (R12). -/
def byteAt (w : List Byte) (k : Nat) : Nat := (memRead1 w k).toNat

/-- A scalar field's value as a number (R11, R28); `options` has none. -/
def fieldValue {p : Params} (h : Header p) : Field → Nat
  | .version            => h.version.toNat
  | .headerLength       => h.headerLength.toNat
  | .dscp               => h.dscp.toNat
  | .ecn                => h.ecn.toNat
  | .totalLength        => h.totalLength.toNat
  | .identification     => h.identification.toNat
  | .flags              => h.flags.toNat
  | .fragmentOffset     => h.fragmentOffset.toNat
  | .ttl                => h.ttl.toNat
  | .protocol           => h.protocol.toNat
  | .headerChecksum     => h.headerChecksum.toNat
  | .sourceAddress      => h.sourceAddress.toNat
  | .destinationAddress => h.destinationAddress.toNat
  | .options            => 0

end Sys2Proof.Machine
end

