-- ==== Sys2Proof/Certificates/Slice0/Obligations.lean ====
section
/-! DEFINITION. The statements for the provers. -/

open Sys2Proof Sys2Proof.Machine

/-! ### Words, steps and reset -/

/-- The command word: 0 is ENCODE, 1 is DECODE, and bit 0 alone decides (the spec's decision D6, rule R80; the whole
byte around the bit is the table numbering's). -/
def Obligations.CommandWordSelectsOperation : Prop :=
  decode (.command 0#1) = .ok .encode ∧ decode (.command 1#1) = .ok .decode ∧
  (∀ n w, n ≤ 8 → w % 2 = 0 → decodeTableWord n w = some .encode) ∧
  (∀ n w, n ≤ 8 → w % 2 = 1 → decodeTableWord n w = some .decode)

/-- Words written out from the table's `encoding` strings name their rows (the field word is the model's own name for a
row, log entry 5; the positions are the table's). -/
def Obligations.FieldWordsOfTheTableDecode : Prop :=
  decode (.fieldStep 0#1 0xF00000000000000000000000000000000000000000#168) = .ok (.version .encode) ∧
  decode (.fieldStep 1#1 0x0000000000001FFF00000000000000000000000000#168) = .ok (.fragmentOffset .decode) ∧
  decode (.fieldStep 0#1 0x000000000000000000000000FFFFFFFF0000000000#168) = .ok (.sourceAddress .encode) ∧
  decode (.fieldStep 1#1 0x0000000000000000000000000000000000000000FF#168) = .ok (.options .decode) ∧
  decode (.fieldStep 1#1 0#168) = .error .noFieldRow

/-- Words and rows agree in both directions: each instruction's table word decodes to it, and no other word does. The
field words are the model's own (log entry 5). -/
def Obligations.WordsAndInstructionsAreOneToOne : Prop :=
  ∀ (w : TableWord) (i : Instr), decode w = .ok i ↔ w = encodeWord i

/-- The decoder accepts every command word (R81) and, of the model's field words (log entry 5), exactly those whose
positions are one field's by the table of R84. -/
def Obligations.DecoderAcceptsExactlyTheRowsOfTheTable : Prop :=
  ∀ w : TableWord, (∃ i, decode w = .ok i) ↔ w.wellFormed = true

/-- Every one of the 160 positions of the fixed portion belongs to exactly one scalar field (R84, a derivation of the
spec's). -/
def Obligations.EveryFixedBitBelongsToOneField : Prop :=
  ∀ k, k < 160 → ∃ f, f ≠ .options ∧ f.covers k = true ∧ ∀ g : Field, g.covers k = true → g = f

/-- A step runs the decoded instruction: the next transaction's command word is decoded and the instruction runs on the
operands of that transaction, with the rest of the program left to come and the model's free-value counter advanced (log
entry 2); then nothing of the transaction remains in the codec (R7, R244; what an idle codec's fields hold is the model's
choice, log entry 6). -/
def Obligations.StepRunsTheDecodedInstruction : Prop :=
  ∀ (s : State) (t : Transaction) (rest : List Transaction) (i : Instr),
    s.program = t :: rest → decode (.command t.cmdOp) = .ok i →
    ∃ u, exec i { s with
        program := rest,
        hIn := { t.header with options := t.header.options.take t.optionsLen },
        wIn := t.wBytes.take t.wLen,
        freeCtr := s.freeCtr + 1 } = .next u ∧
      step s = .next { u with
        hIn := Header.zero Config.params, wIn := [], result := none, wOut := [], hOut := Header.zero Config.params }

/-- A word placed for the next step is run by it, on the operands that the codec holds (the model's choice, log entry 7);
then nothing of the transaction remains in the codec (log entry 6). -/
def Obligations.PlacedWordRunsNext : Prop :=
  ∀ (s : State) (n w : Nat) (i : Instr), s.program = [] → decodeTableWord n w = some i →
    ∃ u, exec i { s with freeCtr := s.freeCtr + 1 } = .next u ∧
      step (s.withFetchWord n w) = .next { u with
        hIn := Header.zero Config.params, wIn := [], result := none, wOut := [], hOut := Header.zero Config.params }

/-- With no transaction presented nothing happens. The counter is the model's own (log entry 2). That an idle step leaves a
result valid, in states where one is, is the model's choice (log entry 11): R40 and R240 do not say it. -/
def Obligations.IdleStepChangesNothing : Prop :=
  ∀ s : State, s.program = [] → step s = .next { s with freeCtr := s.freeCtr + 1 }

/-- After reset: idle, no transaction, no result valid, none delivered (the spec's decision D11, rules R40 and R240). The
values of the other fields are the model's (log entry 6) and are not stated. -/
def Obligations.ResetLeavesTheCodecIdle : Prop :=
  State.reset.program = [] ∧ State.reset.result = none ∧ State.reset.results = []

/-! ### ENCODE -/

/-- ENCODE (R120) with its eleven steps (R122 to R132): status `OK` and exactly the bytes the rules give. -/
def Obligations.EncodeReturnsThePackedBytes : Prop :=
  ∀ s : State, ∃ t w,
    exec .encode s = .next t ∧ t.result = some (.encoded w) ∧ (Result.encoded w).status = .ok ∧
    w.length = 20 + s.hIn.options.length ∧
    w[0]? = some (BitVec.ofNat 8 ((s.hIn.version.toNat <<< 4) ||| (s.hIn.headerLength.toNat &&& 0xF))) ∧
    byteAt w 0 = s.hIn.version.toNat % 16 * 16 + s.hIn.headerLength.toNat % 16 ∧
    w[1]? = some (BitVec.ofNat 8 ((s.hIn.dscp.toNat <<< 2) ||| (s.hIn.ecn.toNat &&& 0x3))) ∧
    byteAt w 1 = s.hIn.dscp.toNat % 64 * 4 + s.hIn.ecn.toNat % 4 ∧
    byteAt w 2 = s.hIn.totalLength.toNat / 256 ∧ byteAt w 3 = s.hIn.totalLength.toNat % 256 ∧
    byteAt w 4 = s.hIn.identification.toNat / 256 ∧ byteAt w 5 = s.hIn.identification.toNat % 256 ∧
    byteAt w 6 * 256 + byteAt w 7 =
      ((s.hIn.flags.toNat <<< 13) ||| (s.hIn.fragmentOffset.toNat &&& 0x1FFF)) % 65536 ∧
    byteAt w 6 * 256 + byteAt w 7 = s.hIn.flags.toNat % 8 * 8192 + s.hIn.fragmentOffset.toNat % 8192 ∧
    byteAt w 8 = s.hIn.ttl.toNat ∧ byteAt w 9 = s.hIn.protocol.toNat ∧
    byteAt w 10 = s.hIn.headerChecksum.toNat / 256 ∧ byteAt w 11 = s.hIn.headerChecksum.toNat % 256 ∧
    byteAt w 12 = s.hIn.sourceAddress.toNat / 16777216 ∧ byteAt w 13 = s.hIn.sourceAddress.toNat / 65536 % 256 ∧
    byteAt w 14 = s.hIn.sourceAddress.toNat / 256 % 256 ∧ byteAt w 15 = s.hIn.sourceAddress.toNat % 256 ∧
    byteAt w 16 = s.hIn.destinationAddress.toNat / 16777216 ∧
    byteAt w 17 = s.hIn.destinationAddress.toNat / 65536 % 256 ∧
    byteAt w 18 = s.hIn.destinationAddress.toNat / 256 % 256 ∧ byteAt w 19 = s.hIn.destinationAddress.toNat % 256 ∧
    ∀ i, i < s.hIn.options.length → w[20 + i]? = s.hIn.options[i]?

/-- The frame of ENCODE: the operands and the rest of the program are as they were (R138), and so is the record of DECODE
(the model's reading, DEDUCED, log entry 11); the buffer, the result and the list of results are what changes. -/
def Obligations.EncodeChangesOnlyItsResult : Prop :=
  ∀ s : State, exec .encode s = .next { s with
    wOut := encodeHeader s.hIn,
    result := some (.encoded (encodeHeader s.hIn)),
    results := s.results ++ [.encoded (encodeHeader s.hIn)] }

/-- ENCODE never fails: `OK` for every operand (R136), in every state and at every container width. -/
def Obligations.EncodeNeverFails : Prop :=
  ∀ s : State, ∃ t r, exec .encode s = .next t ∧ t.result = some r ∧ r.status = .ok

/-- The length of the result comes from the options alone (R121); for a well-formed Header it is `4 × header_length`. -/
def Obligations.EncodeLengthFollowsTheOptions : Prop :=
  ∀ (p : Params) (h : Header p),
    (encodeHeader h).length = 20 + h.options.length ∧
    (h.WellFormed → (encodeHeader h).length = 4 * h.headerLength.toNat)

/-- Every bit of every scalar field stands at its wire position, most significant bit first, at every container width
(R85 to R97 pack; the positions are those of R84). -/
def Obligations.EncodePlacesEveryFieldBit : Prop :=
  ∀ (p : Params) (h : Header p) (f : Field) (i : Nat), f ≠ .options → i < f.width →
    wireBit (encodeHeader h) (f.first + i) = (fieldValue h f).testBit (f.width - 1 - i)

/-- ENCODE sees only the low bits of each field and the options, whatever the container widths (R139, a derivation of
the spec's). -/
def Obligations.EncodeSeesOnlyTheLowBits : Prop :=
  ∀ (p q : Params) (h : Header p) (g : Header q),
    (∀ f : Field, fieldValue h f % 2 ^ f.width = fieldValue g f % 2 ^ f.width) → h.options = g.options →
    encodeHeader h = encodeHeader g

/-- ENCODE loses nothing but the cut bits (R202, a derivation of the spec's). -/
def Obligations.EncodeLosesNothingButTheCutBits : Prop :=
  ∀ (p : Params) (h g : Header p), encodeHeader h = encodeHeader g ↔ h.norm = g.norm

/-- Property 5: the source's worked example, byte for byte (ten of the twenty bytes are a derivation of the spec's, R194). -/
def Obligations.WorkedExampleEncodesExactly : Prop :=
  ∀ s : State, s.hIn = { Header.zero Config.params with
      version := 4, headerLength := 5, totalLength := 28, flags := 2, ttl := 64, protocol := 17,
      sourceAddress := 0x0A000001, destinationAddress := 0x0A000002 } →
    ∃ t, exec .encode s = .next t ∧ t.result = some (.encoded
      [0x45, 0x00, 0x00, 0x1C, 0x00, 0x00, 0x40, 0x00, 0x40, 0x11, 0x00, 0x00,
       0x0A, 0x00, 0x00, 0x01, 0x0A, 0x00, 0x00, 0x02])

/-- Property 6 (R195): the four option bytes are at offsets 20 to 23 and come back from DECODE, whatever the other
fields. -/
def Obligations.OptionsArePreservedAtOffsetTwenty : Prop :=
  ∀ s : State, s.hIn.headerLength.toNat % 16 = 6 → s.hIn.options = [0xAA, 0xBB, 0xCC, 0xDD] →
    ∃ t w, exec .encode s = .next t ∧ t.result = some (.encoded w) ∧ w.length = 24 ∧
      w.drop 20 = [0xAA, 0xBB, 0xCC, 0xDD] ∧
      ∃ u h, exec .decode { t with wIn := w } = .next u ∧ u.result = some (.decoded h) ∧
        h.options = [0xAA, 0xBB, 0xCC, 0xDD]

/-- Property 7 (R196): `flags = 9` keeps its low three bits and is no error; the other narrow fields are cut the same
way. -/
def Obligations.OutOfRangeFieldsKeepTheirLowBits : Prop :=
  ∀ s : State, ∃ t w, exec .encode s = .next t ∧ t.result = some (.encoded w) ∧
    (s.hIn.flags = 9 → byteAt w 6 / 32 = 1 ∧ (s.hIn.fragmentOffset = 0 → byteAt w 6 = 0x20 ∧ byteAt w 7 = 0x00)) ∧
    byteAt w 6 / 32 = s.hIn.flags.toNat % 8 ∧
    byteAt w 0 / 16 = s.hIn.version.toNat % 16 ∧ byteAt w 0 % 16 = s.hIn.headerLength.toNat % 16 ∧
    byteAt w 1 / 4 = s.hIn.dscp.toNat % 64 ∧ byteAt w 1 % 4 = s.hIn.ecn.toNat % 4 ∧
    byteAt w 6 % 32 * 256 + byteAt w 7 = s.hIn.fragmentOffset.toNat % 8192

/-! ### DECODE -/

/-- Property 2 (R191): fewer than 20 bytes are `TooShort`, whatever they are, and nothing else changes (R217, a derivation
of the spec's). -/
def Obligations.FewerThanTwentyBytesAreTooShort : Prop :=
  ∀ s : State, s.wIn.length < 20 →
    exec .decode s = .next { s with
      result := some (.failed .tooShort), results := s.results ++ [.failed .tooShort] }

/-- Property 3 for every length: a `header_length` of 0 to 4 in 20 bytes or more is `InvalidHeaderLength` (R168; in R192 a
derivation of the spec's), and nothing else changes (R217). -/
def Obligations.HeaderLengthBelowFiveIsInvalid : Prop :=
  ∀ s : State, 20 ≤ s.wIn.length → byteAt s.wIn 0 % 16 ≤ 4 →
    exec .decode s = .next { s with
      result := some (.failed .invalidHeaderLength), results := s.results ++ [.failed .invalidHeaderLength] }

/-- Property 4 for every such length: a `header_length` of 6 to 15 in 20 bytes or more, but fewer than it declares, is
`TooShortForOptions` (R169; in R193 a derivation of the spec's), and nothing else changes (R217). -/
def Obligations.MissingOptionBytesAreTooShortForOptions : Prop :=
  ∀ s : State, 20 ≤ s.wIn.length → 6 ≤ byteAt s.wIn 0 % 16 → s.wIn.length < 4 * (byteAt s.wIn 0 % 16) →
    exec .decode s = .next { s with
      result := some (.failed .tooShortForOptions), results := s.results ++ [.failed .tooShortForOptions] }

/-- DECODE of a long enough input: the fields of bytes 0 to 7 (R153 to R160), and that nothing but the record, the result
and the list of results changes (R179; that the result buffer keeps its contents is the
model's reading, DEDUCED, log entry 11). -/
def Obligations.DecodeExtractsTheFirstEightFields : Prop :=
  ∀ s : State, 20 ≤ s.wIn.length → 5 ≤ byteAt s.wIn 0 % 16 → 4 * (byteAt s.wIn 0 % 16) ≤ s.wIn.length →
    ∃ h, exec .decode s = .next { s with
        hOut := h, result := some (.decoded h), results := s.results ++ [.decoded h] } ∧
      h.version.toNat = byteAt s.wIn 0 / 16 ∧ h.headerLength.toNat = byteAt s.wIn 0 % 16 ∧
      h.dscp.toNat = byteAt s.wIn 1 / 4 ∧ h.ecn.toNat = byteAt s.wIn 1 % 4 ∧
      h.totalLength.toNat = byteAt s.wIn 2 * 256 + byteAt s.wIn 3 ∧
      h.identification.toNat = byteAt s.wIn 4 * 256 + byteAt s.wIn 5 ∧
      h.flags.toNat = byteAt s.wIn 6 / 32 ∧
      h.fragmentOffset.toNat = byteAt s.wIn 6 % 32 * 256 + byteAt s.wIn 7

/-- DECODE of a long enough input: the fields of bytes 8 to 19 (R161 to R165) and the options (R170). -/
def Obligations.DecodeExtractsTheRemainingFields : Prop :=
  ∀ s : State, 20 ≤ s.wIn.length → 5 ≤ byteAt s.wIn 0 % 16 → 4 * (byteAt s.wIn 0 % 16) ≤ s.wIn.length →
    ∃ t h, exec .decode s = .next t ∧ t.result = some (.decoded h) ∧
      h.ttl.toNat = byteAt s.wIn 8 ∧ h.protocol.toNat = byteAt s.wIn 9 ∧
      h.headerChecksum.toNat = byteAt s.wIn 10 * 256 + byteAt s.wIn 11 ∧
      h.sourceAddress.toNat = byteAt s.wIn 12 * 16777216 + byteAt s.wIn 13 * 65536 + byteAt s.wIn 14 * 256 +
        byteAt s.wIn 15 ∧
      h.destinationAddress.toNat = byteAt s.wIn 16 * 16777216 + byteAt s.wIn 17 * 65536 + byteAt s.wIn 18 * 256 +
        byteAt s.wIn 19 ∧
      h.options.length = 4 * (byteAt s.wIn 0 % 16 - 5) ∧
      ∀ i, i < 4 * (byteAt s.wIn 0 % 16 - 5) → h.options[i]? = s.wIn[20 + i]?

/-- Every bit of every scalar field of a decoded Header is the bit at its wire position, at every container width, and
no bit stands above the field (R153 to R165 and R39; the positions are those of R84). -/
def Obligations.DecodeReadsEveryFieldBit : Prop :=
  ∀ (p : Params) (w : List Byte) (h : Header p) (f : Field), decodeWire p w = .ok h → f ≠ .options →
    fieldValue h f < 2 ^ f.width ∧
    ∀ i, i < f.width → (fieldValue h f).testBit (f.width - 1 - i) = wireBit w (f.first + i)

/-- The four outcomes partition all inputs by `len(W)` and the low nibble of byte 0 (R173, a derivation of the
spec's), at every container width. -/
def Obligations.DecodeOutcomesPartitionTheInputs : Prop :=
  ∀ (p : Params) (w : List Byte),
    (decodeWire p w = .error .tooShort ↔ w.length < 20) ∧
    (decodeWire p w = .error .invalidHeaderLength ↔ 20 ≤ w.length ∧ byteAt w 0 % 16 < 5) ∧
    (decodeWire p w = .error .tooShortForOptions ↔
      20 ≤ w.length ∧ 5 ≤ byteAt w 0 % 16 ∧ w.length < 4 * (byteAt w 0 % 16)) ∧
    ((∃ h, decodeWire p w = .ok h) ↔
      20 ≤ w.length ∧ 5 ≤ byteAt w 0 % 16 ∧ 4 * (byteAt w 0 % 16) ≤ w.length)

/-- What DECODE returns is well formed (R171): every field in its range, `header_length` 5 to 15, the options as long as
it says. -/
def Obligations.DecodedHeadersAreWellFormed : Prop :=
  (∀ (p : Params) (w : List Byte) (h : Header p), decodeWire p w = .ok h →
    h.WellFormed ∧ 5 ≤ h.headerLength.toNat ∧ h.headerLength.toNat ≤ 15 ∧
      h.options.length = 4 * (h.headerLength.toNat - 5)) ∧
  ∀ (s : State) (h : Header Config.params), decodeWire Config.params s.wIn = .ok h →
    ∃ t, exec .decode s = .next t ∧ t.result = some (.decoded h) ∧ (Result.decoded h).status = .ok

/-- Bytes after the header have no effect (R175, a derivation of the spec's): two inputs that agree on the first
`4 × header_length` bytes, both that long, decode alike. -/
def Obligations.BytesAfterTheHeaderAreIgnored : Prop :=
  ∀ (p : Params) (v w : List Byte) (h : Header p), decodeWire p w = .ok h →
    4 * h.headerLength.toNat ≤ v.length → v.take (4 * h.headerLength.toNat) = w.take (4 * h.headerLength.toNat) →
    decodeWire p v = .ok h

/-- How the outcome moves when bytes are appended (R204, a derivation of the spec's). -/
def Obligations.AppendingBytesMovesTheOutcome : Prop :=
  ∀ (p : Params) (w t : List Byte),
    (∀ h, decodeWire p w = .ok h → decodeWire p (w ++ t) = .ok h) ∧
    (decodeWire p w = .error .invalidHeaderLength → decodeWire p (w ++ t) = .error .invalidHeaderLength) ∧
    (decodeWire p w = .error .tooShortForOptions →
      (w.length + t.length < 4 * (byteAt w 0 % 16) → decodeWire p (w ++ t) = .error .tooShortForOptions) ∧
      (4 * (byteAt w 0 % 16) ≤ w.length + t.length → ∃ h, decodeWire p (w ++ t) = .ok h))

/-- A window of `DEC_WIN` bytes and the length tell DECODE all it uses (R176, a derivation of the spec's): what the
ports of R32 present of an input of any length decodes as the whole input does. -/
def Obligations.TheInputWindowLosesNothing : Prop :=
  ∀ (p : Params) (w : List Byte) (t : Transaction), t.wLen = w.length → p.decWin ≤ t.wBytes.length →
    (∀ i, i < w.length → i < p.decWin → t.wBytes[i]? = w[i]?) →
    decodeWire p (sampleWire t) = decodeWire p w

/-- The decoded values and the outcome do not depend on the container widths (R39, a decision and derivation of the
spec's). -/
def Obligations.DecodeDoesNotDependOnContainerWidths : Prop :=
  ∀ (p q : Params) (w : List Byte),
    (∀ e, decodeWire p w = .error e → decodeWire q w = .error e) ∧
    (∀ h, decodeWire p w = .ok h → ∃ g, decodeWire q w = .ok g ∧ h.options = g.options ∧
      ∀ f : Field, fieldValue h f = fieldValue g f)

/-- An error is the whole result and changes nothing: not the operand, not the record, not the buffer. Of DECODE that is
R217, a derivation of the spec's; that a field row is an instruction and its extraction raises an error is the model's
choice (log entry 5). -/
def Obligations.AnErrorChangesNothingElse : Prop :=
  ∀ (i : Instr) (s t : State) (e : DecodeError), exec i s = .next t → t.result = some (.failed e) →
    t = { s with result := some (.failed e), results := s.results ++ [.failed e] }

/-! ### Laws of the two operations together -/

/-- Property 1 (R190): `DECODE(ENCODE(H)) = OK H` for every well-formed Header, at every container width. -/
def Obligations.RoundTripOfWellFormedHeaders : Prop :=
  ∀ (p : Params) (h : Header p), h.WellFormed → decodeWire p (encodeHeader h) = .ok h

/-- The same on the machine: ENCODE, then DECODE of the bytes it returned, delivers the Header that was encoded. -/
def Obligations.MachineRoundTrip : Prop :=
  ∀ s : State, s.hIn.WellFormed → ∃ t w, exec .encode s = .next t ∧ t.result = some (.encoded w) ∧
    ∃ u, exec .decode { t with wIn := w } = .next u ∧ u.result = some (.decoded s.hIn)

/-- ENCODE then DECODE for every Header, well formed or not, in the four cases of R201 (with R198; derivations of the
spec's). -/
def Obligations.EncodeThenDecodeInAllCases : Prop :=
  ∀ (p : Params) (h : Header p),
    (h.headerLength.toNat % 16 < 5 → decodeWire p (encodeHeader h) = .error .invalidHeaderLength) ∧
    (5 ≤ h.headerLength.toNat % 16 → h.options.length < 4 * (h.headerLength.toNat % 16 - 5) →
      decodeWire p (encodeHeader h) = .error .tooShortForOptions) ∧
    (5 ≤ h.headerLength.toNat % 16 → h.options.length = 4 * (h.headerLength.toNat % 16 - 5) →
      decodeWire p (encodeHeader h) = .ok h.norm) ∧
    (5 ≤ h.headerLength.toNat % 16 → 4 * (h.headerLength.toNat % 16 - 5) < h.options.length →
      decodeWire p (encodeHeader h) =
        .ok { h.norm with options := h.options.take (4 * (h.headerLength.toNat % 16 - 5)) })

/-- Reverse round trip (R200, a derivation of the spec's). -/
def Obligations.ReverseRoundTrip : Prop :=
  ∀ (p : Params) (w : List Byte) (h : Header p), decodeWire p w = .ok h →
    encodeHeader h = w.take (4 * h.headerLength.toNat) ∧
    (w.length = 4 * h.headerLength.toNat → encodeHeader h = w)

/-- `norm` (R197, a derivation of the spec's): each narrow field is cut to its low bits and the rest stays, it is the
identity on fields in range, and idempotent. -/
def Obligations.NormalisationCutsAndIsIdempotent : Prop :=
  ∀ (p : Params) (h : Header p),
    (∀ f : Field, fieldValue h.norm f = fieldValue h f % 2 ^ f.width) ∧ h.norm.options = h.options ∧
    h.norm.norm = h.norm ∧ ((∀ f : Field, fieldValue h f < 2 ^ f.width) → h.norm = h)

/-- Lengths (R203, a derivation of the spec's). -/
def Obligations.DecodedLengthIsBounded : Prop :=
  ∀ (p : Params) (w : List Byte) (h : Header p), decodeWire p w = .ok h →
    20 ≤ 4 * h.headerLength.toNat ∧ 4 * h.headerLength.toNat ≤ min w.length 60

/-! ### Sequences of transactions -/

/-- No history (R205, a derivation of the spec's; R244): from every state, running every transaction that is presented
delivers for each the result that its own operands give, in order, and leaves nothing to come. -/
def Obligations.RunDeliversEachTransactionsOwnResult : Prop :=
  ∀ s : State, ∃ s', Host.Core.run Sys2Proof.core s.program.length s = .next s' ∧
    s'.program = [] ∧ s'.results = s.results ++ s.program.map transactionResult

/-- The result depends on the operands of the transaction and on nothing else (R22): two codecs in any two states, with
the same transaction next, deliver the same result. -/
def Obligations.ResultDependsOnlyOnTheOperands : Prop :=
  ∀ (s s' : State) (t : Transaction) (rest rest' : List Transaction), s.program = t :: rest → s'.program = t :: rest' →
    ∃ u u' r, step s = .next u ∧ step s' = .next u' ∧ r = commandResult t.cmdOp (sampleHeader t) (sampleWire t) ∧
      u.results = s.results ++ [r] ∧ u'.results = s'.results ++ [r]

/-- Bytes at or past the stated lengths are ignored (R32, U6): transactions that agree on `cmd_op`, the scalar ports, and
the option and wire bytes below their lengths, have the same step. -/
def Obligations.BytesPastTheStatedLengthsAreIgnored : Prop :=
  ∀ (s : State) (t u : Transaction) (rest : List Transaction),
    u.cmdOp = t.cmdOp → { u.header with options := t.header.options } = t.header →
    u.optionsLen = t.optionsLen → u.wLen = t.wLen →
    (∀ i, i < t.optionsLen → u.header.options[i]? = t.header.options[i]?) →
    (∀ i, i < t.wLen → u.wBytes[i]? = t.wBytes[i]?) →
    step { s with program := t :: rest } = step { s with program := u :: rest }

/-- Presented in any order, transactions have the same results, in that order (R64 (c), R226). -/
def Obligations.ReorderedTransactionsHaveTheSameResults : Prop :=
  ∀ (s : State) (ts : List Transaction), ts.Perm s.program →
    ∃ u u', Host.Core.run Sys2Proof.core s.program.length s = .next u ∧
      Host.Core.run Sys2Proof.core ts.length { s with program := ts } = .next u' ∧
      u'.results.Perm u.results

/-- No input makes the codec fault, get stuck or refuse (R220, a derivation of the spec's): no step faults or refuses, and
every run, of any program and any number of steps, is safe. -/
def Obligations.CommandsNeverFaultOrRefuse : Prop :=
  (∀ (s : State) (f : Fault), step s ≠ .fault f) ∧ (∀ (s : State) (r : Refusal), step s ≠ .refused r) ∧
  ∀ (s : State) (k : Nat), SafeRun k s

/-- The operation set is ENCODE and DECODE and nothing else (R225, a decision of the spec's; R2, R81): in every state a step
does nothing, with no transaction presented, or runs one of the two on the next transaction's operands and leaves the
codec idle (log entry 6). No step runs a field row by itself, and no other word can be presented. -/
def Obligations.OnlyEncodeAndDecodeRun : Prop :=
  (∀ s : State,
    (s.program = [] ∧ step s = .next (tick s)) ∨
    ∃ t rest i u, s.program = t :: rest ∧ (t.cmdOp = 0#1 ∧ i = .encode ∨ t.cmdOp = 1#1 ∧ i = .decode) ∧
      exec i (tick (present t rest s)) = .next u ∧ step s = .next (release u) ∧ (release u).Idle) ∧
  ∀ (n w : Nat) (i : Instr), decodeTableWord n w = some i → i = .encode ∨ i = .decode

/-- Every instruction answers a next state in every state: ENCODE and DECODE by R140 and R180; the fourteen field rows, each
as one step of either operation, by the model's choice (log entry 5). -/
def Obligations.EveryInstructionCompletes : Prop :=
  ∀ (i : Instr) (s : State), ∃ t, exec i s = .next t

/-- The frame of every instruction: the operands and the rest of the program never change (R138 and R179, of ENCODE and
DECODE), nor does the model's counter (log entry 2), and the list of results grows by the one result that is then on the
ports, or, for a field row's step, stays with no result valid (the model's choice, log entry 5). -/
def Obligations.OperandsNeverChange : Prop :=
  ∀ (i : Instr) (s t : State), exec i s = .next t →
    t.hIn = s.hIn ∧ t.wIn = s.wIn ∧ t.program = s.program ∧ t.freeCtr = s.freeCtr ∧
    ((t.result = none ∧ t.results = s.results) ∨ ∃ r, t.result = some r ∧ t.results = s.results ++ [r])

/-! ### The field rows, one step of ENCODE or DECODE each (that a row is an instruction is the model's choice, log entry 5) -/

/-- The packing step of each scalar field: it writes its own bits of the result buffer (R85 to R97) and no other bit that
the buffer had, and nothing else but that no result is valid.
That a row is an instruction is the model's choice (log entry 5). -/
def Obligations.PackingAFieldWritesExactlyItsBits : Prop :=
  ∀ (s : State) (f : Field), f ≠ .options →
    ∃ w, exec (f.step .encode) s = .next { s with wOut := w, result := none } ∧
      w.length = 20 + s.hIn.options.length ∧
      (∀ i, i < f.width → wireBit w (f.first + i) = (fieldValue s.hIn f).testBit (f.width - 1 - i)) ∧
      ∀ k, f.covers k = false → k < 8 * s.wOut.length → k < 8 * (20 + s.hIn.options.length) →
        wireBit w k = wireBit s.wOut k

/-- The packing step of the options (R98, R132).
That a row is an instruction is the model's choice (log entry 5). -/
def Obligations.PackingTheOptionsCopiesThem : Prop :=
  ∀ s : State,
    ∃ w, exec (.options .encode) s = .next { s with wOut := w, result := none } ∧
      w.length = 20 + s.hIn.options.length ∧ w.drop 20 = s.hIn.options ∧
      ∀ a, a < 20 → a < s.wOut.length → w[a]? = s.wOut[a]?

/-- The extraction of each scalar field from 20 bytes or more: its bits become the field (R153 to R165), and every other
field of the record and all the rest stay.
That a row is an instruction is the model's choice (log entry 5). -/
def Obligations.ExtractingAFieldWritesOnlyIt : Prop :=
  ∀ (s : State) (f : Field), f ≠ .options → 20 ≤ s.wIn.length →
    ∃ h, exec (f.step .decode) s = .next { s with hOut := h, result := none } ∧
      fieldValue h f < 2 ^ f.width ∧
      (∀ i, i < f.width → (fieldValue h f).testBit (f.width - 1 - i) = wireBit s.wIn (f.first + i)) ∧
      (∀ g : Field, g ≠ f → fieldValue h g = fieldValue s.hOut g) ∧ h.options = s.hOut.options

/-- The extraction of the options (R170) where the three checks pass.
That a row is an instruction is the model's choice (log entry 5). -/
def Obligations.ExtractingTheOptionsCopiesThem : Prop :=
  ∀ s : State, 20 ≤ s.wIn.length → 5 ≤ byteAt s.wIn 0 % 16 → 4 * (byteAt s.wIn 0 % 16) ≤ s.wIn.length →
    exec (.options .decode) s = .next { s with
      hOut := { s.hOut with options := (s.wIn.drop 20).take (4 * (byteAt s.wIn 0 % 16 - 5)) }, result := none }

/-- An extraction whose checks fail raises DECODE's error: each field from fewer than 20 bytes, and the options by the
first of the three checks that fails, in the order of R216.
That a row is an instruction is the model's choice (log entry 5). -/
def Obligations.ExtractionsRaiseTheErrorsOfDecode : Prop :=
  ∀ s : State,
    (s.wIn.length < 20 → ∀ f : Field, exec (f.step .decode) s = .next (raise .tooShort s)) ∧
    (20 ≤ s.wIn.length → byteAt s.wIn 0 % 16 < 5 →
      exec (.options .decode) s = .next (raise .invalidHeaderLength s)) ∧
    (20 ≤ s.wIn.length → 5 ≤ byteAt s.wIn 0 % 16 → s.wIn.length < 4 * (byteAt s.wIn 0 % 16) →
      exec (.options .decode) s = .next (raise .tooShortForOptions s))

/-- ENCODE is its fourteen fields packed in any order (R133, a derivation of the spec's): from every state the buffer is
the bytes of ENCODE, whatever it held.
That a row is an instruction is the model's choice (log entry 5). -/
def Obligations.PackingAllFieldsInAnyOrderIsEncode : Prop :=
  ∀ (s : State) (fs : List Field), fs.Perm Field.all →
    runInstrs (fs.map fun f => f.step .encode) s = .next { s with wOut := encodeHeader s.hIn, result := none }

/-- A successful DECODE is its fourteen fields extracted in any order (R166, a derivation of the spec's): from every
state the record is the Header of DECODE, whatever it held.
That a row is an instruction is the model's choice (log entry 5). -/
def Obligations.ExtractingAllFieldsInAnyOrderIsDecode : Prop :=
  ∀ (s : State) (fs : List Field) (h : Header Config.params), fs.Perm Field.all →
    decodeWire Config.params s.wIn = .ok h →
    runInstrs (fs.map fun f => f.step .decode) s = .next { s with hOut := h, result := none }

/-! ### Buffers, ports and the invariant -/

/-- Big-endian access (R13, R53): what is written at an offset inside the buffer is read back, most significant byte
first, and every other byte reads as before. -/
def Obligations.WritesAreReadBackBigEndian : Prop :=
  (∀ (w : List Byte) (a : Nat) (v : BitVec 16), a + 1 < w.length →
    memRead2 (memWrite2 w a v) a = v ∧ byteAt (memWrite2 w a v) a = v.toNat / 256 ∧
    byteAt (memWrite2 w a v) (a + 1) = v.toNat % 256 ∧
    ∀ b, b ≠ a → b ≠ a + 1 → memRead1 (memWrite2 w a v) b = memRead1 w b) ∧
  ∀ (w : List Byte) (a : Nat) (v : BitVec 32), a + 3 < w.length →
    memRead4 (memWrite4 w a v) a = v ∧ byteAt (memWrite4 w a v) a = v.toNat / 16777216 ∧
    byteAt (memWrite4 w a v) (a + 1) = v.toNat / 65536 % 256 ∧
    byteAt (memWrite4 w a v) (a + 2) = v.toNat / 256 % 256 ∧ byteAt (memWrite4 w a v) (a + 3) = v.toNat % 256 ∧
    ∀ b, b < a ∨ a + 3 < b → memRead1 (memWrite4 w a v) b = memRead1 w b

/-- The status codes (the spec's decision D7, rule R101), as the status port shows them. -/
def Obligations.StatusPortShowsTheCodes : Prop :=
  ∀ s : State,
    (∀ w, s.result = some (.encoded w) → portStatus s = 0#2) ∧
    (∀ h, s.result = some (.decoded h) → portStatus s = 0#2) ∧
    (s.result = some (.failed .tooShort) → portStatus s = 1#2) ∧
    (s.result = some (.failed .invalidHeaderLength) → portStatus s = 2#2) ∧
    (s.result = some (.failed .tooShortForOptions) → portStatus s = 3#2)

/-- The output ports carry the result of the transaction that ended (R32): the bytes and length of an ENCODE, the Header
of a DECODE. -/
def Obligations.PortsCarryTheResult : Prop :=
  ∀ s : State,
    (∃ t, exec .encode s = .next t ∧ portLen t = 20 + s.hIn.options.length ∧
      ∀ i, i < portLen t → portByte t i = memRead1 (encodeHeader s.hIn) i) ∧
    ∀ h, decodeWire Config.params s.wIn = .ok h →
      ∃ t, exec .decode s = .next t ∧ portHeader t = h ∧
        portOptionsLen t = 4 * (h.headerLength.toNat - 5) ∧
        ∀ i, i < portOptionsLen t → portOption t i = memRead1 s.wIn (20 + i)

/-- The invariant of the machine holds after reset. -/
def Obligations.ResetMeetsTheInvariant : Prop := State.reset.Inv

/-- Every step keeps the invariant, from every state that meets it: results delivered are sound (R121, R171), and the codec
is idle between transactions (R22, R244; what an idle codec's fields hold is the model's choice, log entry 6). -/
def Obligations.EveryStepKeepsTheInvariant : Prop :=
  ∀ s s' : State, s.Inv → step s = .next s' → s'.Inv

/-- A run of a program leaves the codec as it was before, with the list of results to show for it (R244, a decision of the
spec's): from every state with the codec idle, exactly the program, the results and the model's counter (log entry 2)
change. What an idle codec's fields hold is the model's choice (log entry 6). -/
def Obligations.ARunLeavesTheCodecAsItWas : Prop :=
  ∀ s : State, s.Idle → Host.Core.run Sys2Proof.core s.program.length s = .next { s with
    program := [],
    results := s.results ++ s.program.map transactionResult,
    freeCtr := s.freeCtr + s.program.length }

/-- Every instruction keeps the invariant of a transaction, from every state that meets it: results delivered are sound
(R121, R171), and a valid result on the ports is the last one delivered and is what the buffer or the record holds (the
model's reading of R120, R150 and R244, DEDUCED, log entry 11). That a field row's step leaves no result valid is the
model's choice (log entry 5). -/
def Obligations.EveryInstructionKeepsResultsInAgreement : Prop :=
  ∀ (i : Instr) (s s' : State), s.ResultsAgree → exec i s = .next s' → s'.ResultsAgree
end

