-- ==== Sys2Proof/Laws/State.lean ====
section
/-! SUPPORT. What each shared operation does to each field of the state, true by unfolding it once. -/

namespace Sys2Proof.Machine

@[simp] theorem deliver_program (r : Result) (s : State) : (deliver r s).program = s.program := rfl
@[simp] theorem deliver_hIn (r : Result) (s : State) : (deliver r s).hIn = s.hIn := rfl
@[simp] theorem deliver_wIn (r : Result) (s : State) : (deliver r s).wIn = s.wIn := rfl
@[simp] theorem deliver_result (r : Result) (s : State) : (deliver r s).result = some r := rfl
@[simp] theorem deliver_wOut (r : Result) (s : State) : (deliver r s).wOut = s.wOut := rfl
@[simp] theorem deliver_hOut (r : Result) (s : State) : (deliver r s).hOut = s.hOut := rfl
@[simp] theorem deliver_results (r : Result) (s : State) : (deliver r s).results = s.results ++ [r] := rfl
@[simp] theorem deliver_freeCtr (r : Result) (s : State) : (deliver r s).freeCtr = s.freeCtr := rfl

@[simp] theorem raise_program (e : DecodeError) (s : State) : (raise e s).program = s.program := rfl
@[simp] theorem raise_hIn (e : DecodeError) (s : State) : (raise e s).hIn = s.hIn := rfl
@[simp] theorem raise_wIn (e : DecodeError) (s : State) : (raise e s).wIn = s.wIn := rfl
@[simp] theorem raise_result (e : DecodeError) (s : State) : (raise e s).result = some (.failed e) := rfl
@[simp] theorem raise_wOut (e : DecodeError) (s : State) : (raise e s).wOut = s.wOut := rfl
@[simp] theorem raise_hOut (e : DecodeError) (s : State) : (raise e s).hOut = s.hOut := rfl
@[simp] theorem raise_results (e : DecodeError) (s : State) : (raise e s).results = s.results ++ [.failed e] := rfl
@[simp] theorem raise_freeCtr (e : DecodeError) (s : State) : (raise e s).freeCtr = s.freeCtr := rfl

@[simp] theorem returnWire_program (w : List Byte) (s : State) : (returnWire w s).program = s.program := rfl
@[simp] theorem returnWire_hIn (w : List Byte) (s : State) : (returnWire w s).hIn = s.hIn := rfl
@[simp] theorem returnWire_wIn (w : List Byte) (s : State) : (returnWire w s).wIn = s.wIn := rfl
@[simp] theorem returnWire_result (w : List Byte) (s : State) : (returnWire w s).result = some (.encoded w) := rfl
@[simp] theorem returnWire_wOut (w : List Byte) (s : State) : (returnWire w s).wOut = w := rfl
@[simp] theorem returnWire_hOut (w : List Byte) (s : State) : (returnWire w s).hOut = s.hOut := rfl
@[simp] theorem returnWire_results (w : List Byte) (s : State) : (returnWire w s).results = s.results ++ [.encoded w] := rfl
@[simp] theorem returnWire_freeCtr (w : List Byte) (s : State) : (returnWire w s).freeCtr = s.freeCtr := rfl

@[simp] theorem returnHeader_program (h : Header Config.params) (s : State) : (returnHeader h s).program = s.program := rfl
@[simp] theorem returnHeader_hIn (h : Header Config.params) (s : State) : (returnHeader h s).hIn = s.hIn := rfl
@[simp] theorem returnHeader_wIn (h : Header Config.params) (s : State) : (returnHeader h s).wIn = s.wIn := rfl
@[simp] theorem returnHeader_result (h : Header Config.params) (s : State) : (returnHeader h s).result = some (.decoded h) := rfl
@[simp] theorem returnHeader_wOut (h : Header Config.params) (s : State) : (returnHeader h s).wOut = s.wOut := rfl
@[simp] theorem returnHeader_hOut (h : Header Config.params) (s : State) : (returnHeader h s).hOut = h := rfl
@[simp] theorem returnHeader_results (h : Header Config.params) (s : State) : (returnHeader h s).results = s.results ++ [.decoded h] := rfl
@[simp] theorem returnHeader_freeCtr (h : Header Config.params) (s : State) : (returnHeader h s).freeCtr = s.freeCtr := rfl

@[simp] theorem release_program (s : State) : (release s).program = s.program := rfl
@[simp] theorem release_hIn (s : State) : (release s).hIn = Header.zero Config.params := rfl
@[simp] theorem release_wIn (s : State) : (release s).wIn = [] := rfl
@[simp] theorem release_result (s : State) : (release s).result = none := rfl
@[simp] theorem release_wOut (s : State) : (release s).wOut = [] := rfl
@[simp] theorem release_hOut (s : State) : (release s).hOut = Header.zero Config.params := rfl
@[simp] theorem release_results (s : State) : (release s).results = s.results := rfl
@[simp] theorem release_freeCtr (s : State) : (release s).freeCtr = s.freeCtr := rfl

@[simp] theorem packStep_program (f : List Byte → List Byte) (s : State) : (packStep f s).program = s.program := rfl
@[simp] theorem packStep_hIn (f : List Byte → List Byte) (s : State) : (packStep f s).hIn = s.hIn := rfl
@[simp] theorem packStep_wIn (f : List Byte → List Byte) (s : State) : (packStep f s).wIn = s.wIn := rfl
@[simp] theorem packStep_result (f : List Byte → List Byte) (s : State) : (packStep f s).result = none := rfl
@[simp] theorem packStep_wOut (f : List Byte → List Byte) (s : State) : (packStep f s).wOut = f (fitBuffer s.freeCtr (20 + s.hIn.options.length) s.wOut) := rfl
@[simp] theorem packStep_hOut (f : List Byte → List Byte) (s : State) : (packStep f s).hOut = s.hOut := rfl
@[simp] theorem packStep_results (f : List Byte → List Byte) (s : State) : (packStep f s).results = s.results := rfl
@[simp] theorem packStep_freeCtr (f : List Byte → List Byte) (s : State) : (packStep f s).freeCtr = s.freeCtr := rfl

@[simp] theorem unpackStep_none_program (f : Header Config.params → Header Config.params) (s : State) : (unpackStep none f s).program = s.program := rfl
@[simp] theorem unpackStep_none_hIn (f : Header Config.params → Header Config.params) (s : State) : (unpackStep none f s).hIn = s.hIn := rfl
@[simp] theorem unpackStep_none_wIn (f : Header Config.params → Header Config.params) (s : State) : (unpackStep none f s).wIn = s.wIn := rfl
@[simp] theorem unpackStep_none_result (f : Header Config.params → Header Config.params) (s : State) : (unpackStep none f s).result = none := rfl
@[simp] theorem unpackStep_none_wOut (f : Header Config.params → Header Config.params) (s : State) : (unpackStep none f s).wOut = s.wOut := rfl
@[simp] theorem unpackStep_none_hOut (f : Header Config.params → Header Config.params) (s : State) : (unpackStep none f s).hOut = f s.hOut := rfl
@[simp] theorem unpackStep_none_results (f : Header Config.params → Header Config.params) (s : State) : (unpackStep none f s).results = s.results := rfl
@[simp] theorem unpackStep_none_freeCtr (f : Header Config.params → Header Config.params) (s : State) : (unpackStep none f s).freeCtr = s.freeCtr := rfl

@[simp] theorem present_program (t : Transaction) (rest : List Transaction) (s : State) : (present t rest s).program = rest := rfl
@[simp] theorem present_hIn (t : Transaction) (rest : List Transaction) (s : State) : (present t rest s).hIn = sampleHeader t := rfl
@[simp] theorem present_wIn (t : Transaction) (rest : List Transaction) (s : State) : (present t rest s).wIn = sampleWire t := rfl
@[simp] theorem present_result (t : Transaction) (rest : List Transaction) (s : State) : (present t rest s).result = s.result := rfl
@[simp] theorem present_wOut (t : Transaction) (rest : List Transaction) (s : State) : (present t rest s).wOut = s.wOut := rfl
@[simp] theorem present_hOut (t : Transaction) (rest : List Transaction) (s : State) : (present t rest s).hOut = s.hOut := rfl
@[simp] theorem present_results (t : Transaction) (rest : List Transaction) (s : State) : (present t rest s).results = s.results := rfl
@[simp] theorem present_freeCtr (t : Transaction) (rest : List Transaction) (s : State) : (present t rest s).freeCtr = s.freeCtr := rfl

@[simp] theorem tick_program (s : State) : (tick s).program = s.program := rfl
@[simp] theorem tick_hIn (s : State) : (tick s).hIn = s.hIn := rfl
@[simp] theorem tick_wIn (s : State) : (tick s).wIn = s.wIn := rfl
@[simp] theorem tick_result (s : State) : (tick s).result = s.result := rfl
@[simp] theorem tick_wOut (s : State) : (tick s).wOut = s.wOut := rfl
@[simp] theorem tick_hOut (s : State) : (tick s).hOut = s.hOut := rfl
@[simp] theorem tick_results (s : State) : (tick s).results = s.results := rfl
@[simp] theorem tick_freeCtr (s : State) : (tick s).freeCtr = s.freeCtr + 1 := rfl

/-- An extraction whose checks fail raises the first failing check's error and does nothing else. -/
@[simp] theorem unpackStep_some (e : DecodeError) (f : Header Config.params → Header Config.params) (s : State) :
    unpackStep (some e) f s = raise e s := rfl

end Sys2Proof.Machine
end

