-- ==== Sys2Proof/Laws/Operands.lean ====
section
/-! SUPPORT. One lemma for each thing the buffer operations, the field expressions, ENCODE and DECODE can do. -/

namespace Sys2Proof.Machine

/-! ### Reads and writes -/

@[simp] theorem memWrite1_length (w : List Byte) (a : Nat) (v : Byte) : (memWrite1 w a v).length = w.length := by
  simp [memWrite1]

@[simp] theorem memWrite2_length (w : List Byte) (a : Nat) (v : BitVec 16) : (memWrite2 w a v).length = w.length := by
  simp [memWrite2]

@[simp] theorem memWrite4_length (w : List Byte) (a : Nat) (v : BitVec 32) : (memWrite4 w a v).length = w.length := by
  simp [memWrite4]

@[simp] theorem writeBits_length {k : Nat} (w : List Byte) (a lo : Nat) (v : BitVec k) :
    (writeBits w a lo v).length = w.length := by
  simp [writeBits]

@[simp] theorem writeOptions_length (bs : List Byte) (w : List Byte) (a : Nat) :
    (writeOptions w a bs).length = w.length := by
  induction bs generalizing w a with
  | nil => rfl
  | cons b bs ih => simp [writeOptions, ih]

@[simp] theorem fitBuffer_length (c n : Nat) (w : List Byte) : (fitBuffer c n w).length = n := by
  simp [fitBuffer]; omega

/-- A buffer of the right size is kept as it is. -/
theorem fitBuffer_of_length (c : Nat) (w : List Byte) : fitBuffer c w.length w = w := by
  simp [fitBuffer]

/-- A read of a byte that the write wrote, and of one that it did not. -/
theorem memRead1_memWrite1 (w : List Byte) (a b : Nat) (v : Byte) (ha : a < w.length) :
    memRead1 (memWrite1 w a v) b = if b = a then v else memRead1 w b := by
  simp only [memRead1, memWrite1, List.getD_eq_getElem?_getD, List.getElem?_set]
  by_cases h : a = b
  · subst h; simp [ha]
  · simp [h, Ne.symm h]

/-- A read inside the buffer is of the byte that is there. -/
theorem memRead1_of_lt (w : List Byte) (a : Nat) (h : a < w.length) : memRead1 w a = w[a] := by
  simp [memRead1, h]

/-- Two buffers of one length that read alike at every offset are one buffer. -/
theorem ext_memRead1 {v w : List Byte} (hl : v.length = w.length)
    (h : ∀ a, a < w.length → memRead1 v a = memRead1 w a) : v = w := by
  apply List.ext_getElem hl
  intro a h1 h2
  rw [← memRead1_of_lt v a h1, ← memRead1_of_lt w a h2]
  exact h a h2

/-- A growing buffer keeps the bytes that it has. -/
theorem memRead1_fitBuffer (c n : Nat) (w : List Byte) (a : Nat) (h : a < w.length) (hn : a < n) :
    memRead1 (fitBuffer c n w) a = memRead1 w a := by
  have h1 : a < (fitBuffer c n w).length := by simpa using hn
  have h2 : a < (w.take n).length := by simp; omega
  rw [memRead1_of_lt _ _ h1, memRead1_of_lt _ _ h]
  simp [fitBuffer, List.getElem_append_left h2]

/-- R132 on a buffer with room for the options: the bytes before `a` are kept, then the options, then what was there. -/
theorem writeOptions_eq (bs : List Byte) (w : List Byte) (a : Nat) (h : a + bs.length ≤ w.length) :
    writeOptions w a bs = w.take a ++ bs ++ w.drop (a + bs.length) := by
  induction bs generalizing w a with
  | nil => simp [writeOptions]
  | cons b bs ih =>
    simp only [List.length_cons] at h
    rw [writeOptions, ih _ _ (by simp; omega)]
    have h1 : (memWrite1 w a b).take (a + 1) = w.take a ++ [b] := by
      rw [memWrite1, List.take_set, List.take_add_one]
      have : w[a]? = some w[a] := by simp
      rw [this]
      simp only [Option.toList_some]
      rw [List.set_append_right _ _ (by simp)]
      simp [show a - min a w.length = 0 by omega]
    have h2 : (memWrite1 w a b).drop (a + 1 + bs.length) = w.drop (a + 1 + bs.length) := by
      rw [memWrite1, List.drop_set_of_lt (by omega)]
    rw [h1, h2, show a + 1 + bs.length = a + (bs.length + 1) by omega]
    simp

/-! ### ENCODE -/

/-- The twenty bytes of the fixed portion of ENCODE(H), offset 0 first (R83). -/
def fixedBytes {p : Params} (h : Header p) : List Byte :=
  [packByte0 h.version h.headerLength, packByte1 h.dscp h.ecn,
   h.totalLength.extractLsb' 8 8, h.totalLength.extractLsb' 0 8,
   h.identification.extractLsb' 8 8, h.identification.extractLsb' 0 8,
   (packBytes6 h.flags h.fragmentOffset).extractLsb' 8 8, (packBytes6 h.flags h.fragmentOffset).extractLsb' 0 8,
   h.ttl, h.protocol,
   h.headerChecksum.extractLsb' 8 8, h.headerChecksum.extractLsb' 0 8,
   (h.sourceAddress.extractLsb' 16 16).extractLsb' 8 8, (h.sourceAddress.extractLsb' 16 16).extractLsb' 0 8,
   (h.sourceAddress.extractLsb' 0 16).extractLsb' 8 8, (h.sourceAddress.extractLsb' 0 16).extractLsb' 0 8,
   (h.destinationAddress.extractLsb' 16 16).extractLsb' 8 8, (h.destinationAddress.extractLsb' 16 16).extractLsb' 0 8,
   (h.destinationAddress.extractLsb' 0 16).extractLsb' 8 8, (h.destinationAddress.extractLsb' 0 16).extractLsb' 0 8]

/-- The eleven steps on any buffer of the right length write every byte of it. -/
theorem packSteps_eq {p : Params} (h : Header p) (w : List Byte) (hw : w.length = 20 + h.options.length) :
    packSteps h w = fixedBytes h ++ h.options := by
  obtain _ | ⟨a0, w⟩ := w
  · simp at hw; omega
  obtain _ | ⟨a1, w⟩ := w
  · simp at hw; omega
  obtain _ | ⟨a2, w⟩ := w
  · simp at hw; omega
  obtain _ | ⟨a3, w⟩ := w
  · simp at hw; omega
  obtain _ | ⟨a4, w⟩ := w
  · simp at hw; omega
  obtain _ | ⟨a5, w⟩ := w
  · simp at hw; omega
  obtain _ | ⟨a6, w⟩ := w
  · simp at hw; omega
  obtain _ | ⟨a7, w⟩ := w
  · simp at hw; omega
  obtain _ | ⟨a8, w⟩ := w
  · simp at hw; omega
  obtain _ | ⟨a9, w⟩ := w
  · simp at hw; omega
  obtain _ | ⟨b0, w⟩ := w
  · simp at hw; omega
  obtain _ | ⟨b1, w⟩ := w
  · simp at hw; omega
  obtain _ | ⟨b2, w⟩ := w
  · simp at hw; omega
  obtain _ | ⟨b3, w⟩ := w
  · simp at hw; omega
  obtain _ | ⟨b4, w⟩ := w
  · simp at hw; omega
  obtain _ | ⟨b5, w⟩ := w
  · simp at hw; omega
  obtain _ | ⟨b6, w⟩ := w
  · simp at hw; omega
  obtain _ | ⟨b7, w⟩ := w
  · simp at hw; omega
  obtain _ | ⟨b8, w⟩ := w
  · simp at hw; omega
  obtain _ | ⟨b9, w⟩ := w
  · simp at hw; omega
  simp only [packSteps]
  rw [writeOptions_eq _ _ _ (by simp at hw ⊢; omega)]
  have hr : w.length = h.options.length := by simp at hw; omega
  simp [memWrite1, memWrite2, memWrite4, fixedBytes, hr, Nat.add_comm 20]

/-- ENCODE(H) as one list. -/
theorem encodeHeader_eq {p : Params} (h : Header p) : encodeHeader h = fixedBytes h ++ h.options :=
  packSteps_eq h _ (by simp)

/-! ### The packed values as numbers -/

/-- R122's two forms are one byte: the shifted field is cut by the byte's width, the other by its mask. -/
theorem packByte0_toNat {m n : Nat} (v : BitVec m) (h : BitVec n) :
    (packByte0 v h).toNat = v.toNat % 16 * 16 + h.toNat % 16 := by
  have h1 : h.toNat &&& 0xF = h.toNat % 16 := Nat.and_two_pow_sub_one_eq_mod _ 4
  rw [packByte0, h1, ← Nat.shiftLeft_add_eq_or_of_lt (show h.toNat % 16 < 2 ^ 4 by omega), Nat.shiftLeft_eq,
    BitVec.toNat_ofNat]
  omega

/-- R123, as R122. -/
theorem packByte1_toNat {m n : Nat} (d : BitVec m) (e : BitVec n) :
    (packByte1 d e).toNat = d.toNat % 64 * 4 + e.toNat % 4 := by
  have h1 : e.toNat &&& 0x3 = e.toNat % 4 := Nat.and_two_pow_sub_one_eq_mod _ 2
  rw [packByte1, h1, ← Nat.shiftLeft_add_eq_or_of_lt (show e.toNat % 4 < 2 ^ 2 by omega), Nat.shiftLeft_eq,
    BitVec.toNat_ofNat]
  omega

/-- R126, as R122, in 16 bits. -/
theorem packBytes6_toNat {m n : Nat} (f : BitVec m) (o : BitVec n) :
    (packBytes6 f o).toNat = f.toNat % 8 * 8192 + o.toNat % 8192 := by
  have h1 : o.toNat &&& 0x1FFF = o.toNat % 8192 := Nat.and_two_pow_sub_one_eq_mod _ 13
  rw [packBytes6, h1, ← Nat.shiftLeft_add_eq_or_of_lt (show o.toNat % 8192 < 2 ^ 13 by omega), Nat.shiftLeft_eq,
    BitVec.toNat_ofNat]
  omega

/-- The high and the low byte of a 16-bit value (R53). -/
theorem hi_toNat (v : BitVec 16) : (v.extractLsb' 8 8).toNat = v.toNat / 256 := by
  have := v.isLt
  simp [BitVec.extractLsb'_toNat, Nat.shiftRight_eq_div_pow]; omega

theorem lo_toNat (v : BitVec 16) : (v.extractLsb' 0 8).toNat = v.toNat % 256 := by
  simp [BitVec.extractLsb'_toNat]

/-- The high and the low half of a 32-bit value (R53). -/
theorem hi16_toNat (v : BitVec 32) : (v.extractLsb' 16 16).toNat = v.toNat / 65536 := by
  have := v.isLt
  simp [BitVec.extractLsb'_toNat, Nat.shiftRight_eq_div_pow]; omega

theorem lo16_toNat (v : BitVec 32) : (v.extractLsb' 0 16).toNat = v.toNat % 65536 := by
  simp [BitVec.extractLsb'_toNat]

/-- A 16-bit read as a number: the byte at the lower offset is the high one (R53). -/
theorem memRead2_toNat (w : List Byte) (a : Nat) :
    (memRead2 w a).toNat = (memRead1 w a).toNat * 256 + (memRead1 w (a + 1)).toNat := by
  have := (memRead1 w (a + 1)).isLt
  rw [memRead2, BitVec.toNat_append, ← Nat.shiftLeft_add_eq_or_of_lt this, Nat.shiftLeft_eq]

/-- A 32-bit read as a number. -/
theorem memRead4_toNat (w : List Byte) (a : Nat) :
    (memRead4 w a).toNat = (memRead1 w a).toNat * 16777216 + (memRead1 w (a + 1)).toNat * 65536 +
      (memRead1 w (a + 2)).toNat * 256 + (memRead1 w (a + 3)).toNat := by
  have := (memRead2 w (a + 2)).isLt
  rw [memRead4, BitVec.toNat_append, ← Nat.shiftLeft_add_eq_or_of_lt this, Nat.shiftLeft_eq, memRead2_toNat,
    memRead2_toNat, show a + 2 + 1 = a + 3 from rfl]
  omega

/-! ### The unpack expressions as numbers (R153 to R160): no container as wide as its field loses a bit -/

theorem headerWords_eq (w : List Byte) : headerWords w = (memRead1 w 0).toNat % 16 := by
  rw [headerWords, BitVec.toNat_and]
  exact Nat.and_two_pow_sub_one_eq_mod _ 4

theorem unpackVersion_toNat {n : Nat} (w : List Byte) (h : 4 ≤ n) :
    (unpackVersion n w).toNat = (memRead1 w 0).toNat / 16 := by
  have := (memRead1 w 0).isLt
  have h2 : 2 ^ 4 ≤ 2 ^ n := Nat.pow_le_pow_right (by decide) h
  rw [unpackVersion, BitVec.toNat_setWidth, BitVec.toNat_ushiftRight, Nat.shiftRight_eq_div_pow, Nat.mod_eq_of_lt]
  omega

theorem unpackHeaderLength_toNat {n : Nat} (w : List Byte) (h : 4 ≤ n) :
    (unpackHeaderLength n w).toNat = (memRead1 w 0).toNat % 16 := by
  have h2 : 2 ^ 4 ≤ 2 ^ n := Nat.pow_le_pow_right (by decide) h
  rw [unpackHeaderLength, BitVec.toNat_setWidth, ← headerWords_eq, headerWords, Nat.mod_eq_of_lt]
  have := headerWords_eq w
  rw [headerWords] at this
  omega

theorem unpackDscp_toNat {n : Nat} (w : List Byte) (h : 6 ≤ n) :
    (unpackDscp n w).toNat = (memRead1 w 1).toNat / 4 := by
  have := (memRead1 w 1).isLt
  have h2 : 2 ^ 6 ≤ 2 ^ n := Nat.pow_le_pow_right (by decide) h
  rw [unpackDscp, BitVec.toNat_setWidth, BitVec.toNat_ushiftRight, Nat.shiftRight_eq_div_pow, Nat.mod_eq_of_lt]
  omega

theorem unpackEcn_toNat {n : Nat} (w : List Byte) (h : 2 ≤ n) :
    (unpackEcn n w).toNat = (memRead1 w 1).toNat % 4 := by
  have h2 : 2 ^ 2 ≤ 2 ^ n := Nat.pow_le_pow_right (by decide) h
  have h1 : (memRead1 w 1 &&& 0x3#8).toNat = (memRead1 w 1).toNat % 4 := by
    rw [BitVec.toNat_and]
    exact Nat.and_two_pow_sub_one_eq_mod _ 2
  rw [unpackEcn, BitVec.toNat_setWidth, h1, Nat.mod_eq_of_lt]
  omega

theorem unpackFlags_toNat {n : Nat} (w : List Byte) (h : 3 ≤ n) :
    (unpackFlags n w).toNat = (memRead1 w 6).toNat / 32 := by
  have := (memRead1 w 6).isLt
  have h2 : 2 ^ 3 ≤ 2 ^ n := Nat.pow_le_pow_right (by decide) h
  rw [unpackFlags, BitVec.toNat_setWidth, BitVec.toNat_ushiftRight, Nat.shiftRight_eq_div_pow, Nat.mod_eq_of_lt]
  omega

theorem unpackFragmentOffset_toNat {n : Nat} (w : List Byte) (h : 13 ≤ n) :
    (unpackFragmentOffset n w).toNat = (memRead1 w 6).toNat % 32 * 256 + (memRead1 w 7).toNat := by
  have := (memRead1 w 7).isLt
  have h2 : 2 ^ 13 ≤ 2 ^ n := Nat.pow_le_pow_right (by decide) h
  have h1 : (memRead2 w 6 &&& 0x1FFF#16).toNat = (memRead2 w 6).toNat % 8192 := by
    rw [BitVec.toNat_and]
    exact Nat.and_two_pow_sub_one_eq_mod _ 13
  rw [unpackFragmentOffset, BitVec.toNat_setWidth, h1, memRead2_toNat, show 6 + 1 = 7 from rfl, Nat.mod_eq_of_lt] <;> omega

/-- R170 where the bytes are there: a slice of the input. -/
theorem unpackOptions_eq (w : List Byte) (n : Nat) (h : 20 + n ≤ w.length) :
    unpackOptions w n = (w.drop 20).take n := by
  apply List.ext_getElem
  · simp [unpackOptions]; omega
  · intro i h1 h2
    simp only [unpackOptions, List.length_map, List.length_range] at h1
    simp [unpackOptions, memRead1_of_lt w (20 + i) (by omega)]

@[simp] theorem unpackOptions_length (w : List Byte) (n : Nat) : (unpackOptions w n).length = n := by
  simp [unpackOptions]

/-! ### DECODE's checks -/

/-- Where a check fails, and where none does (R173). -/
theorem lengthError_cases (w : List Byte) :
    (w.length < 20 ∧ lengthError w = some .tooShort) ∨
    (20 ≤ w.length ∧ headerWords w < 5 ∧ lengthError w = some .invalidHeaderLength) ∨
    (20 ≤ w.length ∧ 5 ≤ headerWords w ∧ w.length < 4 * headerWords w ∧ lengthError w = some .tooShortForOptions) ∨
    (20 ≤ w.length ∧ 5 ≤ headerWords w ∧ 4 * headerWords w ≤ w.length ∧ lengthError w = none) := by
  simp only [lengthError, optionsLen]
  by_cases h1 : w.length < 20
  · simp [h1]
  by_cases h2 : headerWords w < 5
  · simp [h1, h2]; omega
  by_cases h3 : w.length < 20 + 4 * (headerWords w - 5)
  · simp [h1, h2, h3]; omega
  · simp [h1, h2, h3]; omega

/-- What DECODE answers, by the first check that fails (R150). -/
theorem decodeWire_cases (p : Params) (w : List Byte) :
    (∃ e, lengthError w = some e ∧ decodeWire p w = .error e) ∨
    (lengthError w = none ∧ decodeWire p w = .ok (extractHeader p w)) := by
  simp only [decodeWire]
  cases h : lengthError w <;> simp

end Sys2Proof.Machine
end

