-- ==== Sys2Proof/Laws/WireBits.lean ====
section
/-! SUPPORT. The wire bits (R12) of a buffer after each write, and when two buffers are one. -/

namespace Sys2Proof.Machine

/-- A wire bit by arithmetic on its byte. -/
theorem wireBit_eq (w : List Byte) (k : Nat) :
    wireBit w k = decide (byteAt w (k / 8) / 2 ^ (7 - k % 8) % 2 = 1) := by
  have : k % 8 < 8 := Nat.mod_lt _ (by decide)
  rw [wireBit, BitVec.getMsbD_eq_getLsbD, byteAt, ← Nat.testBit_eq_decide_div_mod_eq, BitVec.testBit_toNat]
  simp [this]

/-- The bits of a byte after a field was inserted: the field's where it stands, the byte's elsewhere. -/
theorem insertBits_getLsbD {k : Nat} (b : Byte) (lo : Nat) (v : BitVec k) (j : Nat) (hk : lo + k ≤ 8) (hj : j < 8) :
    (insertBits b lo v).getLsbD j = if lo ≤ j ∧ j < lo + k then v.getLsbD (j - lo) else b.getLsbD j := by
  simp only [insertBits, BitVec.getLsbD_or, BitVec.getLsbD_and, BitVec.getLsbD_not, BitVec.getLsbD_shiftLeft,
    BitVec.getLsbD_setWidth, BitVec.getLsbD_allOnes, hj, decide_true, Bool.true_and]
  by_cases h1 : lo ≤ j <;> by_cases h2 : j < lo + k
  · simp [h1, h2, show ¬ j < lo by omega, show j - lo < 8 by omega, show j - lo < k by omega]
  · simp [h1, h2, show ¬ j - lo < k by omega, BitVec.getLsbD_of_ge v (j - lo) (by omega)]
  · simp [show j < lo by omega, h1]
  · omega

/-- Wire bits after a write of one byte. -/
theorem wireBit_memWrite1 (w : List Byte) (a : Nat) (v : Byte) (k : Nat) (ha : a < w.length) :
    wireBit (memWrite1 w a v) k = if k / 8 = a then v.getMsbD (k % 8) else wireBit w k := by
  simp only [wireBit, memRead1_memWrite1 w a _ v ha]
  split <;> rfl

/-- Wire bits after a write of two bytes: the value's bits in order, most significant first (R53). -/
theorem wireBit_memWrite2 (w : List Byte) (a : Nat) (v : BitVec 16) (k : Nat) (ha : a + 1 < w.length) :
    wireBit (memWrite2 w a v) k = if 8 * a ≤ k ∧ k < 8 * a + 16 then v.getMsbD (k - 8 * a) else wireBit w k := by
  rw [memWrite2, wireBit_memWrite1 _ _ _ _ (by simpa using ha), wireBit_memWrite1 _ _ _ _ (by omega)]
  have hm : k % 8 < 8 := Nat.mod_lt _ (by decide)
  by_cases h1 : k / 8 = a + 1
  · rw [if_pos h1, if_pos (by omega)]
    simp only [BitVec.getMsbD_eq_getLsbD, BitVec.getLsbD_extractLsb', hm, decide_true, Bool.true_and,
      show k - 8 * a < 16 by omega, show 8 - 1 - k % 8 < 8 by omega]
    congr 1; omega
  · rw [if_neg h1]
    by_cases h2 : k / 8 = a
    · rw [if_pos h2, if_pos (by omega)]
      simp only [BitVec.getMsbD_eq_getLsbD, BitVec.getLsbD_extractLsb', hm, decide_true, Bool.true_and,
        show k - 8 * a < 16 by omega, show 8 - 1 - k % 8 < 8 by omega]
      congr 1; omega
    · rw [if_neg h2, if_neg (by omega)]

/-- Wire bits after a write of four bytes. -/
theorem wireBit_memWrite4 (w : List Byte) (a : Nat) (v : BitVec 32) (k : Nat) (ha : a + 3 < w.length) :
    wireBit (memWrite4 w a v) k = if 8 * a ≤ k ∧ k < 8 * a + 32 then v.getMsbD (k - 8 * a) else wireBit w k := by
  rw [memWrite4, wireBit_memWrite2 _ _ _ _ (by simpa using ha), wireBit_memWrite2 _ _ _ _ (by omega)]
  by_cases h1 : 8 * (a + 2) ≤ k ∧ k < 8 * (a + 2) + 16
  · rw [if_pos h1, if_pos (by omega)]
    simp only [BitVec.getMsbD_eq_getLsbD, BitVec.getLsbD_extractLsb', show k - 8 * a < 32 by omega,
      show k - 8 * (a + 2) < 16 by omega, decide_true, Bool.true_and, show 16 - 1 - (k - 8 * (a + 2)) < 16 by omega]
    congr 1; omega
  · rw [if_neg h1]
    by_cases h2 : 8 * a ≤ k ∧ k < 8 * a + 16
    · rw [if_pos h2, if_pos (by omega)]
      simp only [BitVec.getMsbD_eq_getLsbD, BitVec.getLsbD_extractLsb', show k - 8 * a < 32 by omega,
        show k - 8 * a < 16 by omega, decide_true, Bool.true_and, show 16 - 1 - (k - 8 * a) < 16 by omega]
      congr 1; omega
    · rw [if_neg h2, if_neg (by omega)]

/-- Wire bits after a field was written inside one byte. -/
theorem wireBit_writeBits {n : Nat} (w : List Byte) (a lo : Nat) (v : BitVec n) (k : Nat) (ha : a < w.length)
    (hn : lo + n ≤ 8) :
    wireBit (writeBits w a lo v) k =
      if 8 * a + (8 - lo - n) ≤ k ∧ k < 8 * a + (8 - lo) then v.getMsbD (k - (8 * a + (8 - lo - n))) else wireBit w k := by
  rw [writeBits, wireBit_memWrite1 _ _ _ _ ha]
  have hm : k % 8 < 8 := Nat.mod_lt _ (by decide)
  by_cases h1 : k / 8 = a
  · rw [if_pos h1, BitVec.getMsbD_eq_getLsbD, insertBits_getLsbD _ _ _ _ hn (by omega)]
    by_cases h2 : lo ≤ 8 - 1 - k % 8 ∧ 8 - 1 - k % 8 < lo + n
    · rw [if_pos h2, if_pos (by omega), BitVec.getMsbD_eq_getLsbD]
      simp only [hm, decide_true, Bool.true_and, show k - (8 * a + (8 - lo - n)) < n by omega]
      congr 1; omega
    · rw [if_neg h2, if_neg (by omega), wireBit, h1, BitVec.getMsbD_eq_getLsbD]
  · rw [if_neg h1, if_neg (by omega)]

/-- Two buffers of one length with the same wire bits are one buffer. -/
theorem ext_wireBit {v w : List Byte} (hl : v.length = w.length) (h : ∀ k, k < 8 * w.length → wireBit v k = wireBit w k) :
    v = w := by
  apply ext_memRead1 hl
  intro a ha
  apply BitVec.eq_of_getMsbD_eq
  intro i hi
  have := h (8 * a + i) (by omega)
  simp only [wireBit, show (8 * a + i) / 8 = a by omega, show (8 * a + i) % 8 = i by omega] at this
  simpa using this

end Sys2Proof.Machine
end

