-- ==== Sys2Proof/Laws/Exec.lean ====
section
/-! SUPPORT. What one instruction and one step can do, said once. -/

namespace Sys2Proof.Machine

/-- What DECODE does: it returns a Header, or raises the first failing check's error. -/
theorem execDecode_cases (s : State) :
    (∃ h, decodeWire Config.params s.wIn = .ok h ∧ execDecode s = .next (returnHeader h s)) ∨
    (∃ e, decodeWire Config.params s.wIn = .error e ∧ execDecode s = .next (raise e s)) := by
  simp only [execDecode]
  cases h : decodeWire Config.params s.wIn <;> simp

/-- What the step of a field can do: a packing step writes the buffer, an extraction writes the record or raises. -/
theorem exec_fieldStep_cases (f : Field) (op : Op) (s : State) :
    (op = .encode ∧ ∃ g, exec (f.step op) s = .next (packStep g s)) ∨
    (op = .decode ∧ ∃ err g, exec (f.step op) s = .next (unpackStep err g s)) := by
  cases op
  · exact .inl ⟨rfl, by cases f <;> exact ⟨_, rfl⟩⟩
  · exact .inr ⟨rfl, by cases f <;> exact ⟨_, _, rfl⟩⟩

/-- Every instruction is one of the two commands or the step of a field. -/
theorem instr_cases (i : Instr) : i = .encode ∨ i = .decode ∨ ∃ f op, i = Field.step f op := by
  cases i with
  | encode => exact .inl rfl
  | decode => exact .inr (.inl rfl)
  | version op => exact .inr (.inr ⟨.version, op, rfl⟩)
  | headerLength op => exact .inr (.inr ⟨.headerLength, op, rfl⟩)
  | dscp op => exact .inr (.inr ⟨.dscp, op, rfl⟩)
  | ecn op => exact .inr (.inr ⟨.ecn, op, rfl⟩)
  | totalLength op => exact .inr (.inr ⟨.totalLength, op, rfl⟩)
  | identification op => exact .inr (.inr ⟨.identification, op, rfl⟩)
  | flags op => exact .inr (.inr ⟨.flags, op, rfl⟩)
  | fragmentOffset op => exact .inr (.inr ⟨.fragmentOffset, op, rfl⟩)
  | ttl op => exact .inr (.inr ⟨.ttl, op, rfl⟩)
  | protocol op => exact .inr (.inr ⟨.protocol, op, rfl⟩)
  | headerChecksum op => exact .inr (.inr ⟨.headerChecksum, op, rfl⟩)
  | sourceAddress op => exact .inr (.inr ⟨.sourceAddress, op, rfl⟩)
  | destinationAddress op => exact .inr (.inr ⟨.destinationAddress, op, rfl⟩)
  | options op => exact .inr (.inr ⟨.options, op, rfl⟩)

/-- Everything an instruction can do: return a buffer, return a record, raise an error, or run one field's step. -/
theorem exec_cases (i : Instr) (s : State) :
    exec i s = .next (returnWire (encodeHeader s.hIn) s) ∨
    (∃ h, decodeWire Config.params s.wIn = .ok h ∧ exec i s = .next (returnHeader h s)) ∨
    (∃ e, exec i s = .next (raise e s)) ∨
    (∃ g, exec i s = .next (packStep g s)) ∨
    (∃ g, exec i s = .next (unpackStep none g s)) := by
  rcases instr_cases i with rfl | rfl | ⟨f, op, rfl⟩
  · exact .inl rfl
  · rcases execDecode_cases s with ⟨h, e, r⟩ | ⟨e, _, r⟩
    · exact .inr (.inl ⟨h, e, r⟩)
    · exact .inr (.inr (.inl ⟨e, r⟩))
  · rcases exec_fieldStep_cases f op s with ⟨-, g, r⟩ | ⟨-, err, g, r⟩
    · exact .inr (.inr (.inr (.inl ⟨g, r⟩)))
    · cases err with
      | some e => exact .inr (.inr (.inl ⟨e, r⟩))
      | none => exact .inr (.inr (.inr (.inr ⟨g, r⟩)))

/-- The command port asks for ENCODE or for DECODE (R81). -/
theorem decodeCommand_cases (b : BitVec 1) : decodeCommand b = .encode ∨ decodeCommand b = .decode := by
  unfold decodeCommand
  cases Op.ofBit b
  · exact .inl rfl
  · exact .inr rfl

/-- Everything a step can do: nothing, or one whole transaction. -/
theorem step_cases (s : State) :
    (s.program = [] ∧ step s = .next (tick s)) ∨
    (∃ t rest, s.program = t :: rest ∧ step s = transact t rest s) := by
  cases hp : s.program with
  | nil => exact .inl ⟨rfl, by simp only [step, hp]⟩
  | cons t rest => exact .inr ⟨t, rest, rfl, by simp only [step, hp]⟩

/-- A transaction whose instruction ends in `u` leaves `u` with the codec released. -/
theorem transact_next {t : Transaction} {rest : List Transaction} {s u : State}
    (h : exec (decodeCommand t.cmdOp) (tick (present t rest s)) = .next u) : transact t rest s = .next (release u) := by
  simp only [transact, h]

/-- A run whose first step goes on is the rest of the run from there. -/
theorem run_succ {k : Nat} {s u : State} (h : step s = .next u) :
    Host.Core.run Sys2Proof.core (k + 1) s = Host.Core.run Sys2Proof.core k u := by
  have h' : Sys2Proof.core.step s = .next u := h
  simp only [Host.Core.run, h']

end Sys2Proof.Machine
end

