-- ==== Sys2Proof/Laws/Header.lean ====
section
/-! SUPPORT. The Header record by its values (R28), the record that DECODE extracts by its bytes, and when DECODE
answers it. -/

namespace Sys2Proof.Machine

/-- Equality of Headers is equality of the thirteen values and of the options (R28). -/
theorem header_ext {p : Params} {h g : Header p} (hv : ∀ f, fieldValue h f = fieldValue g f)
    (ho : h.options = g.options) : h = g := by
  cases h; cases g
  simp only [Header.mk.injEq] at *
  exact ⟨BitVec.eq_of_toNat_eq (hv .version), BitVec.eq_of_toNat_eq (hv .headerLength), BitVec.eq_of_toNat_eq (hv .dscp),
    BitVec.eq_of_toNat_eq (hv .ecn), BitVec.eq_of_toNat_eq (hv .totalLength), BitVec.eq_of_toNat_eq (hv .identification),
    BitVec.eq_of_toNat_eq (hv .flags), BitVec.eq_of_toNat_eq (hv .fragmentOffset), BitVec.eq_of_toNat_eq (hv .ttl),
    BitVec.eq_of_toNat_eq (hv .protocol), BitVec.eq_of_toNat_eq (hv .headerChecksum),
    BitVec.eq_of_toNat_eq (hv .sourceAddress), BitVec.eq_of_toNat_eq (hv .destinationAddress), ho⟩

/-- `trunc_N` by arithmetic (R11). -/
theorem keepLow_toNat {w : Nat} (n : Nat) (v : BitVec w) : (keepLow n v).toNat = v.toNat % 2 ^ n := by
  rw [keepLow, BitVec.toNat_ofNat, Nat.mod_eq_of_lt]
  exact lt_of_le_of_lt (Nat.mod_le _ _) v.isLt

/-- A successful DECODE: the record it extracts, and the lengths that allow it (R173). -/
theorem decodeWire_eq_ok {p : Params} {w : List Byte} {h : Header p} :
    decodeWire p w = .ok h ↔
      h = extractHeader p w ∧ 20 ≤ w.length ∧ 5 ≤ headerWords w ∧ 4 * headerWords w ≤ w.length := by
  rcases lengthError_cases w with ⟨a, l⟩ | ⟨_, b, l⟩ | ⟨_, _, c, l⟩ | ⟨a, b, c, l⟩
  · simp [decodeWire, l]; omega
  · simp [decodeWire, l]; omega
  · simp [decodeWire, l]; omega
  · simp [decodeWire, l, a, b, c, eq_comm]

end Sys2Proof.Machine
end

