-- ==== Sys2Proof/Laws/PerInstr.lean ====
section
/-! SUPPORT. Statements made for each instruction as syntax. -/

namespace Sys2Proof

/-- The position patterns of the table are the positions of R84, bit by bit. -/
theorem Field.positions_getMsbD (f : Field) : ∀ k, k < 168 → f.positions.getMsbD k = f.covers k := by
  cases f <;> decide +kernel

/-- Every field is one of the fourteen listed. -/
theorem Field.mem_all (f : Field) : f ∈ Field.all := by
  cases f <;> decide

/-- The word of a field's step names the field's row. -/
theorem fieldStep_wellFormed (f : Field) (b : BitVec 1) : (TableWord.fieldStep b f.positions).wellFormed = true := by
  simp only [TableWord.wellFormed, List.any_eq_true, List.all_eq_true, List.mem_range, beq_iff_eq]
  exact ⟨f, f.mem_all, f.positions_getMsbD⟩

end Sys2Proof

namespace Sys2Proof.Laws.WordNamesARow

/-- The instruction's word passes the check of table words. -/
def Statement (i : Instr) : Prop := (encodeWord i).wellFormed = true

theorem encode : Statement .encode := rfl

theorem decode : Statement .decode := rfl

theorem version (op : Op) : Statement (.version op) := fieldStep_wellFormed .version op.bit

theorem headerLength (op : Op) : Statement (.headerLength op) := fieldStep_wellFormed .headerLength op.bit

theorem dscp (op : Op) : Statement (.dscp op) := fieldStep_wellFormed .dscp op.bit

theorem ecn (op : Op) : Statement (.ecn op) := fieldStep_wellFormed .ecn op.bit

theorem totalLength (op : Op) : Statement (.totalLength op) := fieldStep_wellFormed .totalLength op.bit

theorem identification (op : Op) : Statement (.identification op) := fieldStep_wellFormed .identification op.bit

theorem flags (op : Op) : Statement (.flags op) := fieldStep_wellFormed .flags op.bit

theorem fragmentOffset (op : Op) : Statement (.fragmentOffset op) := fieldStep_wellFormed .fragmentOffset op.bit

theorem ttl (op : Op) : Statement (.ttl op) := fieldStep_wellFormed .ttl op.bit

theorem protocol (op : Op) : Statement (.protocol op) := fieldStep_wellFormed .protocol op.bit

theorem headerChecksum (op : Op) : Statement (.headerChecksum op) := fieldStep_wellFormed .headerChecksum op.bit

theorem sourceAddress (op : Op) : Statement (.sourceAddress op) := fieldStep_wellFormed .sourceAddress op.bit

theorem destinationAddress (op : Op) : Statement (.destinationAddress op) := fieldStep_wellFormed .destinationAddress op.bit

theorem options (op : Op) : Statement (.options op) := fieldStep_wellFormed .options op.bit

end Sys2Proof.Laws.WordNamesARow
end

