-- ==== Sys2Proof/Tests/Slice0.lean ====
section
/-! SUPPORT. The model's own tests: the smoke test of the checks, words written out from the table, the vectors of
spec/95_test_vectors.md (S, V), and for each statement with hypotheses a witness that meets them. -/

namespace Sys2Proof.Tests

open Sys2Proof Sys2Proof.Machine

/-! ### Helpers -/

/-- The all-zero Header at the default widths (R106). -/
def hdr : Header Config.params := Header.zero Config.params

/-- `n` bytes of 00. -/
def zeros (n : Nat) : List Byte := List.replicate n 0

/-- The state after reset with an ENCODE operand. -/
def withH (h : Header Config.params) : State := { State.reset with hIn := h, wOut := zeros (20 + h.options.length) }

/-- The state after reset with a DECODE operand. -/
def withW (w : List Byte) : State := { State.reset with wIn := w }

/-- The result that an instruction leaves on the ports. -/
def resultOf (i : Instr) (s : State) : Option Result :=
  match exec i s with
  | .next t => t.result
  | .fault _ => none
  | .refused _ => none

/-- The result buffer after an instruction. -/
def wireOf (i : Instr) (s : State) : List Byte :=
  match exec i s with
  | .next t => t.wOut
  | .fault _ => []
  | .refused _ => []

/-- The result record after an instruction. -/
def recordOf (i : Instr) (s : State) : Option (Header Config.params) :=
  match exec i s with
  | .next t => some t.hOut
  | .fault _ => none
  | .refused _ => none

/-- The operand of V31 (a well-formed Header with options). -/
def h31 : Header Config.params :=
  { hdr with version := 4, headerLength := 6, totalLength := 24, ttl := 64, protocol := 6,
             sourceAddress := 0xC0A80001, destinationAddress := 0xC0A80002, options := [0xAA, 0xBB, 0xCC, 0xDD] }

/-- The bytes of V31. -/
def w31 : List Byte :=
  [0x46, 0x00, 0x00, 0x18, 0x00, 0x00, 0x00, 0x00, 0x40, 0x06, 0x00, 0x00, 0xC0, 0xA8, 0x00, 0x01, 0xC0, 0xA8, 0x00,
   0x02, 0xAA, 0xBB, 0xCC, 0xDD]

/-- The operand of V32. -/
def h32 : Header Config.params where
  version            := 4
  headerLength       := 7
  dscp               := 0x2E
  ecn                := 1
  totalLength        := 0x1234
  identification     := 0xBEEF
  flags              := 5
  fragmentOffset     := 0x0ABC
  ttl                := 0x7F
  protocol           := 6
  headerChecksum     := 0xC0DE
  sourceAddress      := 0xC0A80164
  destinationAddress := 0x08080404
  options            := [1, 2, 3, 4, 5, 6, 7, 8]

/-- The bytes of V32; the first twenty are the header X of 41_decode.md. -/
def w32 : List Byte :=
  [0x47, 0xB9, 0x12, 0x34, 0xBE, 0xEF, 0xAA, 0xBC, 0x7F, 0x06, 0xC0, 0xDE, 0xC0, 0xA8, 0x01, 0x64, 0x08, 0x08, 0x04,
   0x04, 1, 2, 3, 4, 5, 6, 7, 8]

/-- The source's worked example (S5). -/
def h30 : Header Config.params :=
  { hdr with version := 4, headerLength := 5, totalLength := 28, flags := 2, ttl := 64, protocol := 17,
             sourceAddress := 0x0A000001, destinationAddress := 0x0A000002 }

/-- The bytes of S5. -/
def w30 : List Byte :=
  [0x45, 0x00, 0x00, 0x1C, 0x00, 0x00, 0x40, 0x00, 0x40, 0x11, 0x00, 0x00, 0x0A, 0x00, 0x00, 0x01, 0x0A, 0x00, 0x00,
   0x02]

/-- The operand of V22: every narrow field above its range. -/
def h22 : Header Config.params :=
  { hdr with version := 0x1F, headerLength := 0x25, dscp := 0xFF, ecn := 7, flags := 0xFF, fragmentOffset := 0xFFFF }

/-- The operand of V23: each narrow field has the bit just above its range. -/
def h23 : Header Config.params :=
  { hdr with version := 0x14, headerLength := 0x15, dscp := 0x40, ecn := 4, flags := 8, fragmentOffset := 0x2000 }

/-- A command transaction on an instance with the default ports. -/
def cmd (b : BitVec 1) (h : Header Config.params) (w : List Byte) : Transaction := ⟨b, h, h.options.length, w, w.length⟩

/-- The narrowest containers R8 allows. -/
abbrev narrow : Params := ⟨4, 4, 6, 2, 3, 13, 40, 60, 60, by decide, by decide, by decide, by decide, by decide, by decide, by decide, by decide, by decide⟩

/-! ### The checks refuse ill-formed terms -/

theorem test_wellFormed_accepts : h31.WellFormed ∧ h32.WellFormed := by decide
theorem test_version_out_of_range : ¬ ({ h31 with version := 16 } : Header _).WellFormed := by decide
theorem test_header_length_out_of_range : ¬ ({ h31 with headerLength := 22 } : Header _).WellFormed := by decide
theorem test_dscp_out_of_range : ¬ ({ h31 with dscp := 64 } : Header _).WellFormed := by decide
theorem test_ecn_out_of_range : ¬ ({ h31 with ecn := 4 } : Header _).WellFormed := by decide
theorem test_flags_out_of_range : ¬ ({ h31 with flags := 9 } : Header _).WellFormed := by decide
theorem test_fragment_offset_out_of_range : ¬ ({ h31 with fragmentOffset := 8192 } : Header _).WellFormed := by decide
theorem test_header_length_below_five : ¬ ({ h31 with headerLength := 4, options := [] } : Header _).WellFormed := by decide
theorem test_options_of_another_length : ¬ ({ h31 with options := [0xAA] } : Header _).WellFormed := by decide

/-- A field step whose positions are two fields', or none's, is ill formed. -/
theorem test_ill_formed_words :
    (TableWord.fieldStep 0 0xFF0000000000000000000000000000000000000000#168).wellFormed = false ∧
    (TableWord.fieldStep 1 0#168).wellFormed = false := by decide

/-- Ports: an options array of another size, a length above the capacity, a window of another size, a length that cannot
be told. -/
theorem test_ports :
    Transaction.FitsPorts Config.params ⟨0, { hdr with options := zeros 40 }, 40, zeros 60, 65535⟩ ∧
    ¬ Transaction.FitsPorts Config.params ⟨0, { hdr with options := zeros 39 }, 39, zeros 60, 0⟩ ∧
    ¬ Transaction.FitsPorts Config.params ⟨0, { hdr with options := zeros 40 }, 41, zeros 60, 0⟩ ∧
    ¬ Transaction.FitsPorts Config.params ⟨0, { hdr with options := zeros 40 }, 0, zeros 59, 0⟩ ∧
    ¬ Transaction.FitsPorts Config.params ⟨0, { hdr with options := zeros 40 }, 0, zeros 60, 65536⟩ := by decide

/-! ### Words written out from the table: R80 for the commands, `field_mask_over_fixed_portion` for the fields -/

theorem test_decode_encode : decodeTableWord 8 0b0 = some .encode := by decide
theorem test_decode_decode : decodeTableWord 8 0b1 = some .decode := by decide
theorem test_decode_version : decode (.fieldStep 0 0xF00000000000000000000000000000000000000000#168) = .ok (.version .encode) := by decide
theorem test_decode_header_length : decode (.fieldStep 1 0x0F0000000000000000000000000000000000000000#168) = .ok (.headerLength .decode) := by decide
theorem test_decode_dscp : decode (.fieldStep 0 0x00FC00000000000000000000000000000000000000#168) = .ok (.dscp .encode) := by decide
theorem test_decode_ecn : decode (.fieldStep 1 0x000300000000000000000000000000000000000000#168) = .ok (.ecn .decode) := by decide
theorem test_decode_total_length : decode (.fieldStep 0 0x0000FFFF0000000000000000000000000000000000#168) = .ok (.totalLength .encode) := by decide
theorem test_decode_identification : decode (.fieldStep 1 0x00000000FFFF000000000000000000000000000000#168) = .ok (.identification .decode) := by decide
theorem test_decode_flags : decode (.fieldStep 0 0x000000000000E00000000000000000000000000000#168) = .ok (.flags .encode) := by decide
theorem test_decode_fragment_offset : decode (.fieldStep 1 0x0000000000001FFF00000000000000000000000000#168) = .ok (.fragmentOffset .decode) := by decide
theorem test_decode_ttl : decode (.fieldStep 0 0x0000000000000000FF000000000000000000000000#168) = .ok (.ttl .encode) := by decide
theorem test_decode_protocol : decode (.fieldStep 1 0x000000000000000000FF0000000000000000000000#168) = .ok (.protocol .decode) := by decide
theorem test_decode_header_checksum : decode (.fieldStep 0 0x00000000000000000000FFFF000000000000000000#168) = .ok (.headerChecksum .encode) := by decide
theorem test_decode_source_address : decode (.fieldStep 1 0x000000000000000000000000FFFFFFFF0000000000#168) = .ok (.sourceAddress .decode) := by decide
theorem test_decode_destination_address : decode (.fieldStep 0 0x00000000000000000000000000000000FFFFFFFF00#168) = .ok (.destinationAddress .encode) := by decide
theorem test_decode_options : decode (.fieldStep 1 0x0000000000000000000000000000000000000000FF#168) = .ok (.options .decode) := by decide

/-- The field rows have no command word (match and mask 0): a word longer than the command port is none, and is not placed. -/
theorem test_longer_words :
    decodeTableWord 160 0 = none ∧ State.reset.withFetchWord 160 0 = State.reset := by decide

/-- A word placed after reset is run by the very next step, which leaves the codec idle: DECODE of the empty buffer. -/
theorem test_first_step : step (State.reset.withFetchWord 8 1) =
    .next { State.reset with results := [.failed .tooShort], freeCtr := 1 } := by rfl

/-! ### ENCODE (vectors S5, V22) and its packing steps (V1 to V19e); every other bit as it was -/

theorem test_encode_worked_example : resultOf .encode (withH h30) = some (.encoded w30) := by decide

theorem test_encode_truncates : resultOf .encode (withH h22) =
    some (.encoded ([0xF5, 0xFF, 0, 0, 0, 0, 0xFF, 0xFF] ++ zeros 12)) := by decide

theorem test_pack_version : wireOf (.version .encode) (withH { hdr with version := 0x1F }) = 0xF0 :: zeros 19 := by decide
theorem test_pack_header_length : wireOf (.headerLength .encode) (withH { hdr with headerLength := 0x25 }) = 0x05 :: zeros 19 := by decide
theorem test_pack_dscp : wireOf (.dscp .encode) (withH { hdr with dscp := 0x41 }) = [0, 0x04] ++ zeros 18 := by decide
theorem test_pack_ecn : wireOf (.ecn .encode) (withH { hdr with ecn := 7 }) = [0, 0x03] ++ zeros 18 := by decide
theorem test_pack_total_length : wireOf (.totalLength .encode) (withH { hdr with totalLength := 0x1234 }) = [0, 0, 0x12, 0x34] ++ zeros 16 := by decide
theorem test_pack_identification : wireOf (.identification .encode) (withH { hdr with identification := 0xBEEF }) = zeros 4 ++ [0xBE, 0xEF] ++ zeros 14 := by decide
theorem test_pack_flags : wireOf (.flags .encode) (withH { hdr with flags := 9 }) = zeros 6 ++ [0x20] ++ zeros 13 := by decide
theorem test_pack_fragment_offset : wireOf (.fragmentOffset .encode) (withH { hdr with fragmentOffset := 0xFFFF }) = zeros 6 ++ [0x1F, 0xFF] ++ zeros 12 := by decide
theorem test_pack_ttl : wireOf (.ttl .encode) (withH { hdr with ttl := 0x7F }) = zeros 8 ++ [0x7F] ++ zeros 11 := by decide
theorem test_pack_protocol : wireOf (.protocol .encode) (withH { hdr with protocol := 0x11 }) = zeros 9 ++ [0x11] ++ zeros 10 := by decide
theorem test_pack_header_checksum : wireOf (.headerChecksum .encode) (withH { hdr with headerChecksum := 0xC0DE }) = zeros 10 ++ [0xC0, 0xDE] ++ zeros 8 := by decide
theorem test_pack_source_address : wireOf (.sourceAddress .encode) (withH { hdr with sourceAddress := 0x01020304 }) = zeros 12 ++ [1, 2, 3, 4] ++ zeros 4 := by decide
theorem test_pack_destination_address : wireOf (.destinationAddress .encode) (withH { hdr with destinationAddress := 0xFFFFFFFE }) = zeros 16 ++ [0xFF, 0xFF, 0xFF, 0xFE] := by decide
theorem test_pack_options : wireOf (.options .encode) (withH { hdr with options := [0xAA, 0xBB, 0xCC, 0xDD] }) = zeros 20 ++ [0xAA, 0xBB, 0xCC, 0xDD] := by decide

/-! ### DECODE (vectors V52, V63, V64, V69, V73 to V81) and its extractions (the examples of X in 41_decode.md) -/

theorem test_decode_header : resultOf .decode (withW w32) = some (.decoded h32) := by decide

theorem test_decode_errors :
    resultOf .decode (withW []) = some (.failed .tooShort) ∧
    resultOf .decode (withW (0x43 :: zeros 9)) = some (.failed .tooShort) ∧
    resultOf .decode (withW (0x4F :: zeros 18)) = some (.failed .tooShort) ∧
    resultOf .decode (withW (0xF4 :: zeros 59)) = some (.failed .invalidHeaderLength) ∧
    resultOf .decode (withW (0x46 :: zeros 22)) = some (.failed .tooShortForOptions) ∧
    resultOf .decode (withW (0x4F :: zeros 58)) = some (.failed .tooShortForOptions) := by decide

theorem test_unpack_version : recordOf (.version .decode) (withW w32) = some { hdr with version := 4 } := by decide
theorem test_unpack_header_length : recordOf (.headerLength .decode) (withW w32) = some { hdr with headerLength := 7 } := by decide
theorem test_unpack_dscp : recordOf (.dscp .decode) (withW w32) = some { hdr with dscp := 46 } := by decide
theorem test_unpack_ecn : recordOf (.ecn .decode) (withW w32) = some { hdr with ecn := 1 } := by decide
theorem test_unpack_total_length : recordOf (.totalLength .decode) (withW w32) = some { hdr with totalLength := 4660 } := by decide
theorem test_unpack_identification : recordOf (.identification .decode) (withW w32) = some { hdr with identification := 48879 } := by decide
theorem test_unpack_flags : recordOf (.flags .decode) (withW w32) = some { hdr with flags := 5 } := by decide
theorem test_unpack_fragment_offset : recordOf (.fragmentOffset .decode) (withW w32) = some { hdr with fragmentOffset := 2748 } := by decide
theorem test_unpack_ttl : recordOf (.ttl .decode) (withW w32) = some { hdr with ttl := 127 } := by decide
theorem test_unpack_protocol : recordOf (.protocol .decode) (withW w32) = some { hdr with protocol := 6 } := by decide
theorem test_unpack_header_checksum : recordOf (.headerChecksum .decode) (withW w32) = some { hdr with headerChecksum := 49374 } := by decide
theorem test_unpack_source_address : recordOf (.sourceAddress .decode) (withW w32) = some { hdr with sourceAddress := 0xC0A80164 } := by decide
theorem test_unpack_destination_address : recordOf (.destinationAddress .decode) (withW w32) = some { hdr with destinationAddress := 0x08080404 } := by decide
theorem test_unpack_options : recordOf (.options .decode) (withW w32) = some { hdr with options := [1, 2, 3, 4, 5, 6, 7, 8] } := by decide

/-! ### Witnesses: for each statement with hypotheses, values that meet them, at the boundaries -/

theorem witness_CommandWordSelectsOperation : (8 ≤ 8 ∧ 254 % 2 = 0) ∧ (8 ≤ 8 ∧ 255 % 2 = 1) := by decide

theorem witness_WordsAndInstructionsAreOneToOne : decode (encodeWord (.flags .decode)) = .ok (.flags .decode) := by decide

theorem witness_EveryFixedBitBelongsToOneField : 159 < 160 ∧ Field.destinationAddress.covers 159 = true := by decide

theorem witness_StepRunsTheDecodedInstruction :
    ({ State.reset with program := [cmd 1 hdr w30, cmd 0 h30 []] } : State).program = cmd 1 hdr w30 :: [cmd 0 h30 []] ∧
    decode (.command (cmd 1 hdr w30).cmdOp) = .ok .decode := by decide

theorem witness_PlacedWordRunsNext : State.reset.program = [] ∧ decodeTableWord 8 1 = some .decode := by decide

theorem witness_IdleStepChangesNothing : State.reset.program = [] := by decide

theorem witness_EncodeLengthFollowsTheOptions : h32.WellFormed := by decide

theorem witness_EncodePlacesEveryFieldBit :
    (Field.destinationAddress ≠ .options ∧ 31 < Field.destinationAddress.width) ∧ (Field.ecn ≠ .options ∧ 0 < Field.ecn.width) := by
  decide

/-- V23 against V40: two Headers at different container widths that agree on the low bits. -/
theorem witness_EncodeSeesOnlyTheLowBits :
    (∀ f : Field,
      fieldValue h23 f % 2 ^ f.width =
        fieldValue ({ Header.zero narrow with version := 4, headerLength := 5 } : Header narrow) f % 2 ^ f.width) ∧
    h23.options = (Header.zero narrow).options := by
  refine ⟨fun f => ?_, rfl⟩
  cases f <;> decide

theorem witness_WorkedExampleEncodesExactly : (withH h30).hIn = { Header.zero Config.params with
      version := 4, headerLength := 5, totalLength := 28, flags := 2, ttl := 64, protocol := 17,
      sourceAddress := 0x0A000001, destinationAddress := 0x0A000002 } := rfl

theorem witness_OptionsArePreservedAtOffsetTwenty :
    ((withH h31).hIn.headerLength.toNat % 16 = 6 ∧ (withH h31).hIn.options = [0xAA, 0xBB, 0xCC, 0xDD]) ∧
    (withH { h31 with headerLength := 0xF6 }).hIn.headerLength.toNat % 16 = 6 := by decide

theorem witness_OutOfRangeFieldsKeepTheirLowBits :
    (withH { hdr with flags := 9 }).hIn.flags = 9 ∧ (withH { hdr with flags := 9 }).hIn.fragmentOffset = 0 := by decide

theorem witness_FewerThanTwentyBytesAreTooShort : (withW []).wIn.length < 20 ∧ (withW (zeros 19)).wIn.length < 20 := by decide

theorem witness_HeaderLengthBelowFiveIsInvalid :
    (20 ≤ (withW (0x44 :: zeros 19)).wIn.length ∧ byteAt (withW (0x44 :: zeros 19)).wIn 0 % 16 ≤ 4) ∧
    (20 ≤ (withW (zeros 60)).wIn.length ∧ byteAt (withW (zeros 60)).wIn 0 % 16 ≤ 4) := by decide

theorem witness_MissingOptionBytesAreTooShortForOptions :
    (20 ≤ (withW (0x46 :: zeros 22)).wIn.length ∧ 6 ≤ byteAt (withW (0x46 :: zeros 22)).wIn 0 % 16 ∧
      (withW (0x46 :: zeros 22)).wIn.length < 4 * (byteAt (withW (0x46 :: zeros 22)).wIn 0 % 16)) ∧
    (20 ≤ (withW (0x4F :: zeros 58)).wIn.length ∧ 6 ≤ byteAt (withW (0x4F :: zeros 58)).wIn 0 % 16 ∧
      (withW (0x4F :: zeros 58)).wIn.length < 4 * (byteAt (withW (0x4F :: zeros 58)).wIn 0 % 16)) := by decide

/-- Of DecodeExtractsTheFirstEightFields, DecodeExtractsTheRemainingFields and ExtractingTheOptionsCopiesThem: exactly
enough bytes, at both ends of the range of `header_length`. -/
theorem witness_DecodeExtracts :
    (20 ≤ (withW (0x45 :: zeros 19)).wIn.length ∧ 5 ≤ byteAt (withW (0x45 :: zeros 19)).wIn 0 % 16 ∧
      4 * (byteAt (withW (0x45 :: zeros 19)).wIn 0 % 16) ≤ (withW (0x45 :: zeros 19)).wIn.length) ∧
    (20 ≤ (withW (0x4F :: zeros 59)).wIn.length ∧ 5 ≤ byteAt (withW (0x4F :: zeros 59)).wIn 0 % 16 ∧
      4 * (byteAt (withW (0x4F :: zeros 59)).wIn 0 % 16) ≤ (withW (0x4F :: zeros 59)).wIn.length) := by decide

theorem witness_DecodeReadsEveryFieldBit :
    decodeWire Config.params w32 = .ok h32 ∧ Field.sourceAddress ≠ .options ∧ 31 < Field.sourceAddress.width :=
  ⟨rfl, by decide, by decide⟩

/-- Each clause of the partition at the values where it meets the next. -/
theorem witness_DecodeOutcomesPartitionTheInputs :
    decodeWire narrow (zeros 19) = .error .tooShort ∧ decodeWire narrow (zeros 20) = .error .invalidHeaderLength ∧
    decodeWire narrow (0x44 :: zeros 59) = .error .invalidHeaderLength ∧
    decodeWire narrow (0x46 :: zeros 19) = .error .tooShortForOptions ∧
    decodeWire narrow (0x46 :: zeros 22) = .error .tooShortForOptions ∧
    decodeWire narrow (0x45 :: zeros 19) = .ok { Header.zero narrow with version := 4, headerLength := 5 } ∧
    decodeWire narrow (0x46 :: zeros 23) =
      .ok { Header.zero narrow with version := 4, headerLength := 6, options := zeros 4 } :=
  ⟨rfl, rfl, rfl, rfl, rfl, rfl, rfl⟩

theorem witness_DecodedHeadersAreWellFormed : decodeWire Config.params (withW w32).wIn = .ok h32 := rfl

theorem witness_BytesAfterTheHeaderAreIgnored :
    decodeWire Config.params (w31 ++ [0xDE, 0xAD]) = .ok h31 ∧ 4 * h31.headerLength.toNat ≤ w31.length ∧
    w31.take (4 * h31.headerLength.toNat) = (w31 ++ [0xDE, 0xAD]).take (4 * h31.headerLength.toNat) :=
  ⟨rfl, by decide, by decide⟩

/-- A success, an invalid length, and a short input that two bytes leave short and four complete. -/
theorem witness_AppendingBytesMovesTheOutcome :
    decodeWire Config.params w31 = .ok h31 ∧
    decodeWire Config.params (zeros 20) = .error .invalidHeaderLength ∧
    decodeWire Config.params (0x46 :: zeros 19) = .error .tooShortForOptions ∧
    (0x46 :: zeros 19).length + (zeros 3).length < 4 * (byteAt (0x46 :: zeros 19) 0 % 16) ∧
    4 * (byteAt (0x46 :: zeros 19) 0 % 16) ≤ (0x46 :: zeros 19).length + (zeros 4).length :=
  ⟨rfl, rfl, rfl, by decide, by decide⟩

/-- An input one byte longer than the window. -/
theorem witness_TheInputWindowLosesNothing :
    (⟨1, hdr, 0, 0x4F :: zeros 59, 61⟩ : Transaction).wLen = (0x4F :: zeros 60).length ∧
    narrow.decWin ≤ (0x4F :: zeros 59 : List Byte).length ∧
    ∀ i, i < (0x4F :: zeros 60 : List Byte).length → i < narrow.decWin →
      (0x4F :: zeros 59 : List Byte)[i]? = (0x4F :: zeros 60 : List Byte)[i]? := by
  refine ⟨rfl, by decide, fun i _ h => ?_⟩
  revert i; decide

theorem witness_DecodeDoesNotDependOnContainerWidths :
    decodeWire narrow (zeros 3) = .error .tooShort ∧ decodeWire Config.params w31 = .ok h31 := ⟨rfl, rfl⟩

/-- DECODE, and an extraction, of an input that is too short. -/
theorem witness_AnErrorChangesNothingElse :
    (∃ t, exec .decode (withW (zeros 19)) = .next t ∧ t.result = some (.failed .tooShort)) ∧
    (∃ t, exec (.ttl .decode) (withW (zeros 19)) = .next t ∧ t.result = some (.failed .tooShort)) :=
  ⟨⟨_, rfl, rfl⟩, ⟨_, rfl, rfl⟩⟩

theorem witness_RoundTripOfWellFormedHeaders : h31.WellFormed ∧ ({ hdr with headerLength := 5 } : Header _).WellFormed ∧
    ({ hdr with headerLength := 15, options := zeros 40 } : Header _).WellFormed := by decide

theorem witness_MachineRoundTrip : (withH h31).hIn.WellFormed := by decide

/-- The four cases of R201: V41 to V47 and their like. -/
theorem witness_EncodeThenDecodeInAllCases :
    ({ hdr with headerLength := 0x14 } : Header _).headerLength.toNat % 16 < 5 ∧
    (5 ≤ ({ h31 with headerLength := 7 } : Header _).headerLength.toNat % 16 ∧ h31.options.length < 4 * (7 % 16 - 5)) ∧
    (5 ≤ h31.headerLength.toNat % 16 ∧ h31.options.length = 4 * (h31.headerLength.toNat % 16 - 5)) ∧
    (5 ≤ ({ h31 with headerLength := 5 } : Header _).headerLength.toNat % 16 ∧ 4 * (5 % 16 - 5) < h31.options.length) := by
  decide

theorem witness_ReverseRoundTrip :
    decodeWire Config.params w32 = .ok h32 ∧ w32.length = 4 * h32.headerLength.toNat := ⟨rfl, by decide⟩

theorem witness_NormalisationCutsAndIsIdempotent : (∀ f : Field, fieldValue h32 f < 2 ^ f.width) ∧ h22.norm ≠ h22 := by
  refine ⟨fun f => ?_, by decide⟩
  cases f <;> decide

theorem witness_DecodedLengthIsBounded : decodeWire Config.params (w32 ++ zeros 9) = .ok h32 := rfl

theorem witness_ResultDependsOnlyOnTheOperands :
    ({ State.reset with program := [cmd 1 hdr w31] } : State).program = cmd 1 hdr w31 :: [] ∧
    ({ withH h22 with program := [cmd 1 hdr w31, cmd 0 hdr []] } : State).program = cmd 1 hdr w31 :: [cmd 0 hdr []] := by
  decide

/-- Two transactions that differ past the stated lengths. -/
theorem witness_BytesPastTheStatedLengthsAreIgnored :
    ∃ t u : Transaction, t ≠ u ∧ u.cmdOp = t.cmdOp ∧ { u.header with options := t.header.options } = t.header ∧
      u.optionsLen = t.optionsLen ∧ u.wLen = t.wLen ∧
      (∀ i, i < t.optionsLen → u.header.options[i]? = t.header.options[i]?) ∧
      (∀ i, i < t.wLen → u.wBytes[i]? = t.wBytes[i]?) :=
  ⟨⟨0, { hdr with options := [1, 2] }, 1, [3, 4], 1⟩, ⟨0, { hdr with options := [1, 9] }, 1, [3, 8], 1⟩,
    by decide, rfl, rfl, rfl, rfl,
    fun i h => by obtain rfl : i = 0 := Nat.lt_one_iff.1 h; rfl, fun i h => by obtain rfl : i = 0 := Nat.lt_one_iff.1 h; rfl⟩

theorem witness_ReorderedTransactionsHaveTheSameResults :
    List.Perm [cmd 1 hdr w31, cmd 0 h31 [], cmd 1 hdr []]
      ({ State.reset with program := [cmd 0 h31 [], cmd 1 hdr w31, cmd 1 hdr []] } : State).program := List.Perm.swap _ _ _

theorem witness_OnlyEncodeAndDecodeRun :
    decodeTableWord 8 0 = some .encode ∧ decodeTableWord 1 1 = some .decode ∧
    (cmd 0 h31 []).cmdOp = 0#1 ∧ (cmd 1 hdr w31).cmdOp = 1#1 := by decide

/-- A codec that is idle, with an ENCODE and two DECODEs, one of them of a short input, to come. -/
theorem witness_ARunLeavesTheCodecAsItWas :
    ({ State.reset with program := [cmd 0 h31 [], cmd 1 hdr w31, cmd 1 hdr []] } : State).Idle := by decide

/-- A state in the middle of a transaction, with a valid result, that an instruction runs on. -/
theorem witness_EveryInstructionKeepsResultsInAgreement :
    ({ State.reset with result := some (.encoded w30), wOut := w30, results := [.encoded w30] } : State).ResultsAgree ∧
    ∃ s', exec .decode { State.reset with result := some (.encoded w30), wOut := w30, results := [.encoded w30] } = .next s' := by
  refine ⟨⟨?_, ?_, ?_, ?_⟩, _, rfl⟩ <;> simp [State.reset, w30, Result.Sound]

theorem witness_OperandsNeverChange : ∃ t, exec (.ecn .decode) (withW w32) = .next t ∧ t.result = none := ⟨_, rfl, rfl⟩

/-- A packing step, a bit of its field, and a bit that is not of it. -/
theorem witness_PackingAFieldWritesExactlyItsBits :
    Field.flags ≠ .options ∧ 2 < Field.flags.width ∧ Field.flags.covers 51 = false ∧ 51 < 8 * (withH hdr).wOut.length ∧
    51 < 8 * (20 + (withH hdr).hIn.options.length) := by decide

theorem witness_PackingTheOptionsCopiesThem : 19 < 20 ∧ 19 < (withH h31).wOut.length := by decide

theorem witness_ExtractingAFieldWritesOnlyIt :
    Field.ttl ≠ .options ∧ 20 ≤ (withW (zeros 20)).wIn.length ∧ 7 < Field.ttl.width ∧ Field.protocol ≠ .ttl := by decide

/-- The three clauses at their boundaries. -/
theorem witness_ExtractionsRaiseTheErrorsOfDecode :
    (withW (zeros 19)).wIn.length < 20 ∧
    (20 ≤ (withW (0x44 :: zeros 19)).wIn.length ∧ byteAt (withW (0x44 :: zeros 19)).wIn 0 % 16 < 5) ∧
    (20 ≤ (withW (0x46 :: zeros 22)).wIn.length ∧ 5 ≤ byteAt (withW (0x46 :: zeros 22)).wIn 0 % 16 ∧
      (withW (0x46 :: zeros 22)).wIn.length < 4 * (byteAt (withW (0x46 :: zeros 22)).wIn 0 % 16)) := by decide

/-- The fourteen fields backwards. -/
theorem witness_PackingAllFieldsInAnyOrderIsEncode : Field.all.reverse.Perm Field.all := List.reverse_perm _

theorem witness_ExtractingAllFieldsInAnyOrderIsDecode :
    Field.all.reverse.Perm Field.all ∧ decodeWire Config.params (withW w32).wIn = .ok h32 := ⟨List.reverse_perm _, rfl⟩

/-- The last places a 2-byte and a 4-byte write fit, and bytes beside them. -/
theorem witness_WritesAreReadBackBigEndian :
    (18 + 1 < (zeros 20).length ∧ 17 ≠ 18 ∧ 17 ≠ 18 + 1) ∧ 16 + 3 < (zeros 20).length ∧ (15 < 16 ∨ 16 + 3 < 15) := by decide

theorem witness_StatusPortShowsTheCodes :
    ({ State.reset with result := some (.encoded w30) } : State).result = some (.encoded w30) ∧
    ({ State.reset with result := some (.decoded h30) } : State).result = some (.decoded h30) ∧
    ({ State.reset with result := some (.failed .tooShort) } : State).result = some (.failed .tooShort) ∧
    ({ State.reset with result := some (.failed .invalidHeaderLength) } : State).result = some (.failed .invalidHeaderLength) ∧
    ({ State.reset with result := some (.failed .tooShortForOptions) } : State).result = some (.failed .tooShortForOptions) :=
  ⟨rfl, rfl, rfl, rfl, rfl⟩

theorem witness_PortsCarryTheResult : decodeWire Config.params (withW w31).wIn = .ok h31 ∧ 23 < 24 ∧ 3 < h31.options.length := ⟨rfl, by decide, by decide⟩

/-- A state with a result delivered and a transaction to come, that meets the invariant and steps. -/
theorem witness_EveryStepKeepsTheInvariant :
    ({ State.reset with program := [cmd 1 hdr w31], results := [.encoded w30] } : State).Inv ∧
    ∃ s', step { State.reset with program := [cmd 1 hdr w31], results := [.encoded w30] } = .next s' := by
  refine ⟨⟨?_, by decide⟩, _, rfl⟩
  simp [w30, Result.Sound]

end Sys2Proof.Tests
end

section
/-! ENCODE as an instruction: what it answers, and the bytes of its result as numbers (R120 to R132). -/

namespace Sys2Proof.Machine

theorem exec_encode (s : State) : exec .encode s = .next (returnWire (encodeHeader s.hIn) s) := rfl

/-! ### The four bytes of a 32-bit value, high one first (R53) -/

theorem hi16_hi_toNat (v : BitVec 32) : ((v.extractLsb' 16 16).extractLsb' 8 8).toNat = v.toNat / 16777216 := by
  rw [hi_toNat, hi16_toNat, Nat.div_div_eq_div_mul]

theorem hi16_lo_toNat (v : BitVec 32) : ((v.extractLsb' 16 16).extractLsb' 0 8).toNat = v.toNat / 65536 % 256 := by
  rw [lo_toNat, hi16_toNat]

theorem lo16_hi_toNat (v : BitVec 32) : ((v.extractLsb' 0 16).extractLsb' 8 8).toNat = v.toNat / 256 % 256 := by
  rw [hi_toNat, lo16_toNat]
  omega

theorem lo16_lo_toNat (v : BitVec 32) : ((v.extractLsb' 0 16).extractLsb' 0 8).toNat = v.toNat % 256 := by
  rw [lo_toNat, lo16_toNat]
  omega

/-- A 16-bit value is put together from its two bytes (R53). -/
theorem hi_mul_add_lo_toNat (v : BitVec 16) :
    (v.extractLsb' 8 8).toNat * 256 + (v.extractLsb' 0 8).toNat = v.toNat := by
  rw [hi_toNat, lo_toNat]
  omega

/-! ### The bytes of ENCODE(H) -/

@[simp] theorem fixedBytes_length {p : Params} (h : Header p) : (fixedBytes h).length = 20 := rfl

@[simp] theorem encodeHeader_length {p : Params} (h : Header p) :
    (encodeHeader h).length = 20 + h.options.length := by
  simp [encodeHeader_eq]

theorem encodeHeader_getElem?_fixed {p : Params} (h : Header p) {k : Nat} (hk : k < 20) :
    (encodeHeader h)[k]? = (fixedBytes h)[k]? := by
  rw [encodeHeader_eq, List.getElem?_append_left hk]

theorem encodeHeader_getElem?_option {p : Params} (h : Header p) (i : Nat) :
    (encodeHeader h)[20 + i]? = h.options[i]? := by
  rw [encodeHeader_eq, List.getElem?_append_right (Nat.le_add_right 20 i), fixedBytes_length, Nat.add_sub_cancel_left]

theorem byteAt_encodeHeader {p : Params} (h : Header p) {k : Nat} (hk : k < 20) :
    byteAt (encodeHeader h) k = ((fixedBytes h)[k]'hk).toNat := by
  have hget : (fixedBytes h)[k]? = some ((fixedBytes h)[k]'hk) := List.getElem?_eq_getElem hk
  simp only [byteAt, memRead1, List.getD_eq_getElem?_getD, encodeHeader_getElem?_fixed h hk, hget, Option.getD_some]

/-- Bytes 6 and 7 together are the group of R126. -/
theorem byteAt_six_seven_encodeHeader {p : Params} (h : Header p) :
    byteAt (encodeHeader h) 6 * 256 + byteAt (encodeHeader h) 7 = (packBytes6 h.flags h.fragmentOffset).toNat := by
  rw [byteAt_encodeHeader h (k := 6) (by decide), byteAt_encodeHeader h (k := 7) (by decide)]
  exact hi_mul_add_lo_toNat _

/-- Settles O12: the result of ENCODE is always a wire buffer, and a wire buffer comes with `OK`. -/
theorem encodeNeverFails : Obligations.EncodeNeverFails := fun s =>
  ⟨returnWire (encodeHeader s.hIn) s, .encoded (encodeHeader s.hIn), exec_encode s, returnWire_result _ s, rfl⟩

/-- Settles O10: the buffer is `fixedBytes` and then the options, so each clause is one byte of `fixedBytes` read as a
number, or an option byte. -/
theorem encodeReturnsThePackedBytes : Obligations.EncodeReturnsThePackedBytes := by
  intro s
  have byte {k : Nat} (hk : k < 20) := byteAt_encodeHeader s.hIn hk
  exact ⟨returnWire (encodeHeader s.hIn) s, encodeHeader s.hIn, exec_encode s, returnWire_result _ s, rfl,
    encodeHeader_length _,
    -- the shared bytes 0 and 1 (R122, R123)
    encodeHeader_getElem?_fixed _ (by decide), (byte (by decide)).trans (packByte0_toNat _ _),
    encodeHeader_getElem?_fixed _ (by decide), (byte (by decide)).trans (packByte1_toNat _ _),
    -- total_length and identification (R124, R125)
    (byte (by decide)).trans (hi_toNat _), (byte (by decide)).trans (lo_toNat _),
    (byte (by decide)).trans (hi_toNat _), (byte (by decide)).trans (lo_toNat _),
    -- the shared bytes 6 and 7 (R126)
    (byteAt_six_seven_encodeHeader _).trans (BitVec.toNat_ofNat _ _),
    (byteAt_six_seven_encodeHeader _).trans (packBytes6_toNat _ _),
    -- ttl, protocol and header_checksum (R127 to R129)
    byte (by decide), byte (by decide),
    (byte (by decide)).trans (hi_toNat _), (byte (by decide)).trans (lo_toNat _),
    -- the two addresses (R130, R131)
    (byte (by decide)).trans (hi16_hi_toNat _), (byte (by decide)).trans (hi16_lo_toNat _),
    (byte (by decide)).trans (lo16_hi_toNat _), (byte (by decide)).trans (lo16_lo_toNat _),
    (byte (by decide)).trans (hi16_hi_toNat _), (byte (by decide)).trans (hi16_lo_toNat _),
    (byte (by decide)).trans (lo16_hi_toNat _), (byte (by decide)).trans (lo16_lo_toNat _),
    -- the options (R132)
    fun i _ => encodeHeader_getElem?_option _ i⟩

end Sys2Proof.Machine
end

section
/-! DECODE as an instruction where its three checks pass, and the option bytes of its Header (R150, R170). -/

namespace Sys2Proof.Machine

/-- DECODE's checks all pass (R152, R168, R169) exactly when the input has the twenty fixed bytes and the
`header_length` words that its byte 0 announces. -/
theorem lengthError_eq_none_iff (w : List Byte) :
    lengthError w = none ↔ 20 ≤ w.length ∧ 5 ≤ byteAt w 0 % 16 ∧ 4 * (byteAt w 0 % 16) ≤ w.length := by
  rw [byteAt, ← headerWords_eq]
  rcases lengthError_cases w with ⟨hlen, herr⟩ | ⟨-, hwords, herr⟩ | ⟨-, -, hlen, herr⟩ | ⟨h20, h5, hlen, herr⟩ <;>
    rw [herr]
  · simp only [reduceCtorEq, false_iff]; omega
  · simp only [reduceCtorEq, false_iff]; omega
  · simp only [reduceCtorEq, false_iff]; omega
  · exact ⟨fun _ => ⟨h20, h5, hlen⟩, fun _ => rfl⟩

theorem decodeWire_of_lengthError_eq_none (p : Params) {w : List Byte} (h : lengthError w = none) :
    decodeWire p w = .ok (extractHeader p w) := by
  simp only [decodeWire, h]

theorem exec_decode_of_ok {s : State} {h : Header Config.params} (hok : decodeWire Config.params s.wIn = .ok h) :
    exec .decode s = .next (returnHeader h s) := by
  change execDecode s = .next (returnHeader h s)
  simp only [execDecode, hok]

theorem exec_decode_of_lengthError_eq_none {s : State} (h : lengthError s.wIn = none) :
    exec .decode s = .next (returnHeader (extractHeader Config.params s.wIn) s) :=
  exec_decode_of_ok (decodeWire_of_lengthError_eq_none _ h)

theorem optionsLen_eq (w : List Byte) : optionsLen w = 4 * (byteAt w 0 % 16 - 5) := by
  rw [optionsLen, headerWords_eq, byteAt]

theorem unpackOptions_getElem? {w : List Byte} {n i : Nat} (hw : 20 + n ≤ w.length) (hi : i < n) :
    (unpackOptions w n)[i]? = w[20 + i]? := by
  rw [unpackOptions_eq w n hw, List.getElem?_take_of_lt hi, List.getElem?_drop]

/-- Settles O24: the checks pass, so the result is the extracted Header, and each clause is one of its fields: a byte,
a big-endian read, or the slice of option bytes, which the third check says is there. -/
theorem decodeExtractsTheRemainingFields : Obligations.DecodeExtractsTheRemainingFields := by
  intro s h20 h5 hlen
  have hpass : lengthError s.wIn = none := (lengthError_eq_none_iff _).2 ⟨h20, h5, hlen⟩
  have hroom : 20 + 4 * (byteAt s.wIn 0 % 16 - 5) ≤ s.wIn.length := by omega
  have hoptions : (extractHeader Config.params s.wIn).options = unpackOptions s.wIn (4 * (byteAt s.wIn 0 % 16 - 5)) :=
    congrArg (unpackOptions s.wIn) (optionsLen_eq _)
  refine ⟨_, extractHeader Config.params s.wIn, exec_decode_of_lengthError_eq_none hpass, returnHeader_result _ s,
    -- ttl and protocol (R161, R162)
    rfl, rfl,
    -- header_checksum and the two addresses (R163 to R165)
    memRead2_toNat _ 10, memRead4_toNat _ 12, memRead4_toNat _ 16, ?_⟩
  -- the options (R170)
  rw [hoptions]
  exact ⟨unpackOptions_length _ _, fun i hi => unpackOptions_getElem? hroom hi⟩

end Sys2Proof.Machine
end

section
/-! DECODE of ENCODE: the bytes that DECODE reads back are the fields' own, cut to their semantic widths, so where the
checks pass the result is `norm(H)` with as many option bytes as `header_length` announces (R190, R195 to R198). -/

namespace Sys2Proof.Machine

/-! ### The shared bytes of ENCODE(H) as numbers (R122, R123, R126) -/

theorem byteAt_zero_encodeHeader {p : Params} (h : Header p) :
    byteAt (encodeHeader h) 0 = h.version.toNat % 16 * 16 + h.headerLength.toNat % 16 :=
  (byteAt_encodeHeader h (by decide)).trans (packByte0_toNat _ _)

theorem byteAt_one_encodeHeader {p : Params} (h : Header p) :
    byteAt (encodeHeader h) 1 = h.dscp.toNat % 64 * 4 + h.ecn.toNat % 4 :=
  (byteAt_encodeHeader h (by decide)).trans (packByte1_toNat _ _)

theorem byteAt_six_encodeHeader {p : Params} (h : Header p) :
    byteAt (encodeHeader h) 6 = h.flags.toNat % 8 * 32 + h.fragmentOffset.toNat % 8192 / 256 := by
  have hbyte : byteAt (encodeHeader h) 6 = (packBytes6 h.flags h.fragmentOffset).toNat / 256 :=
    (byteAt_encodeHeader h (by decide)).trans (hi_toNat _)
  rw [hbyte, packBytes6_toNat]
  omega

theorem byteAt_seven_encodeHeader {p : Params} (h : Header p) :
    byteAt (encodeHeader h) 7 = h.fragmentOffset.toNat % 256 := by
  have hbyte : byteAt (encodeHeader h) 7 = (packBytes6 h.flags h.fragmentOffset).toNat % 256 :=
    (byteAt_encodeHeader h (by decide)).trans (lo_toNat _)
  rw [hbyte, packBytes6_toNat]
  omega

/-! ### Each narrow field, taken out of the bytes that it shares (R153 to R156, R159, R160) -/

theorem encodeHeader_version {p : Params} (h : Header p) : byteAt (encodeHeader h) 0 / 16 = h.version.toNat % 16 := by
  rw [byteAt_zero_encodeHeader]; omega

theorem encodeHeader_headerLength {p : Params} (h : Header p) :
    byteAt (encodeHeader h) 0 % 16 = h.headerLength.toNat % 16 := by
  rw [byteAt_zero_encodeHeader]; omega

theorem encodeHeader_dscp {p : Params} (h : Header p) : byteAt (encodeHeader h) 1 / 4 = h.dscp.toNat % 64 := by
  rw [byteAt_one_encodeHeader]; omega

theorem encodeHeader_ecn {p : Params} (h : Header p) : byteAt (encodeHeader h) 1 % 4 = h.ecn.toNat % 4 := by
  rw [byteAt_one_encodeHeader]; omega

theorem encodeHeader_flags {p : Params} (h : Header p) : byteAt (encodeHeader h) 6 / 32 = h.flags.toNat % 8 := by
  rw [byteAt_six_encodeHeader]; omega

theorem encodeHeader_fragmentOffset {p : Params} (h : Header p) :
    byteAt (encodeHeader h) 6 % 32 * 256 + byteAt (encodeHeader h) 7 = h.fragmentOffset.toNat % 8192 := by
  rw [byteAt_six_encodeHeader, byteAt_seven_encodeHeader]; omega

/-- Settles O19: each narrow field stands in its place cut to its semantic width; `flags = 9` is the case where that cut
leaves 1, and a `fragment_offset` of 0 beside it leaves the other thirteen bits 0. -/
theorem outOfRangeFieldsKeepTheirLowBits : Obligations.OutOfRangeFieldsKeepTheirLowBits := by
  intro s
  refine ⟨returnWire (encodeHeader s.hIn) s, encodeHeader s.hIn, exec_encode s, returnWire_result _ s, fun hflags => ?_,
    encodeHeader_flags _, encodeHeader_version _, encodeHeader_headerLength _, encodeHeader_dscp _, encodeHeader_ecn _,
    encodeHeader_fragmentOffset _⟩
  have h9 : s.hIn.flags.toNat = 9 := congrArg BitVec.toNat hflags
  refine ⟨by rw [encodeHeader_flags, h9], fun hfrag => ?_⟩
  have h0 : s.hIn.fragmentOffset.toNat = 0 := congrArg BitVec.toNat hfrag
  exact ⟨by rw [byteAt_six_encodeHeader, h9, h0], by rw [byteAt_seven_encodeHeader, h0]⟩

/-! ### What DECODE reads back from ENCODE(H) -/

/-- A 16-bit read is the value whose two bytes stand there, high one first (R53). -/
theorem memRead2_of_bytes {w : List Byte} {a : Nat} {v : BitVec 16} (hhi : memRead1 w a = v.extractLsb' 8 8)
    (hlo : memRead1 w (a + 1) = v.extractLsb' 0 8) : memRead2 w a = v := by
  apply BitVec.eq_of_toNat_eq
  rw [memRead2_toNat, hhi, hlo, hi_mul_add_lo_toNat]

/-- A 32-bit read is the value whose two halves stand there, high one first (R53). -/
theorem memRead4_of_halves {w : List Byte} {a : Nat} {v : BitVec 32} (hhi : memRead2 w a = v.extractLsb' 16 16)
    (hlo : memRead2 w (a + 2) = v.extractLsb' 0 16) : memRead4 w a = v := by
  rw [memRead4, hhi, hlo, BitVec.extractLsb'_append_extractLsb'_eq_extractLsb' (by decide)]
  exact BitVec.extractLsb'_eq_self

theorem memRead1_encodeHeader {p : Params} (h : Header p) {k : Nat} (hk : k < 20) :
    memRead1 (encodeHeader h) k = (fixedBytes h)[k]'hk :=
  BitVec.eq_of_toNat_eq (byteAt_encodeHeader h hk)

theorem headerWords_encodeHeader {p : Params} (h : Header p) :
    headerWords (encodeHeader h) = h.headerLength.toNat % 16 := by
  rw [headerWords_eq, ← byteAt, encodeHeader_headerLength]

theorem encodeHeader_drop_twenty {p : Params} (h : Header p) : (encodeHeader h).drop 20 = h.options := by
  rw [encodeHeader_eq, List.drop_left' (fixedBytes_length h)]

/-- R170 on an encoded buffer: the option bytes of the Header, as many as are asked for. -/
theorem unpackOptions_encodeHeader {p : Params} (h : Header p) {n : Nat} (hn : n ≤ h.options.length) :
    unpackOptions (encodeHeader h) n = h.options.take n := by
  rw [unpackOptions_eq _ _ (by rw [encodeHeader_length]; omega), encodeHeader_drop_twenty]

/-- Every scalar field comes back cut to its semantic width; the full-width ones lose nothing (R198). -/
theorem fieldValue_extractHeader_encodeHeader {p : Params} (h : Header p) (f : Field) :
    fieldValue (extractHeader p (encodeHeader h)) f = fieldValue h f % 2 ^ f.width := by
  have byte {k : Nat} (hk : k < 20) := memRead1_encodeHeader h hk
  have full {n : Nat} {u v : BitVec n} (hread : u = v) : u.toNat = v.toNat % 2 ^ n := by
    rw [hread, BitVec.toNat_mod_cancel]
  cases f with
  | version => exact (unpackVersion_toNat _ p.versionFits).trans (encodeHeader_version h)
  | headerLength => exact (unpackHeaderLength_toNat _ p.ihlFits).trans (encodeHeader_headerLength h)
  | dscp => exact (unpackDscp_toNat _ p.dscpFits).trans (encodeHeader_dscp h)
  | ecn => exact (unpackEcn_toNat _ p.ecnFits).trans (encodeHeader_ecn h)
  | flags => exact (unpackFlags_toNat _ p.flagsFits).trans (encodeHeader_flags h)
  | fragmentOffset => exact (unpackFragmentOffset_toNat _ p.fragFits).trans (encodeHeader_fragmentOffset h)
  | ttl | protocol => exact full (byte (by decide))
  | totalLength | identification | headerChecksum =>
    exact full (memRead2_of_bytes (byte (by decide)) (byte (by decide)))
  | sourceAddress | destinationAddress =>
    exact full (memRead4_of_halves (memRead2_of_bytes (byte (by decide)) (byte (by decide)))
      (memRead2_of_bytes (byte (by decide)) (byte (by decide))))
  | options => rfl

/-! ### `norm(H)` by its values (R197) -/

theorem fieldValue_norm {p : Params} (h : Header p) (f : Field) :
    fieldValue h.norm f = fieldValue h f % 2 ^ f.width := by
  cases f with
  | version | headerLength | dscp | ecn | flags | fragmentOffset => exact keepLow_toNat _ _
  | totalLength | identification | ttl | protocol | headerChecksum | sourceAddress | destinationAddress =>
    exact (BitVec.toNat_mod_cancel _).symm
  | options => rfl

/-- `fieldValue` is of the scalar fields alone. -/
@[simp] theorem fieldValue_with_options {p : Params} (h : Header p) (bs : List Byte) (f : Field) :
    fieldValue { h with options := bs } f = fieldValue h f := by
  cases f <;> rfl

/-- Where every field is in its range, normalisation cuts nothing. -/
theorem norm_eq_self {p : Params} {h : Header p} (hrange : ∀ f : Field, fieldValue h f < 2 ^ f.width) : h.norm = h :=
  header_ext (fun f => (fieldValue_norm h f).trans (Nat.mod_eq_of_lt (hrange f))) rfl

/-- The fields of a well-formed Header are in their ranges (R26). -/
theorem fieldValue_lt_of_wellFormed {p : Params} {h : Header p} (hwf : h.WellFormed) (f : Field) :
    fieldValue h f < 2 ^ f.width := by
  obtain ⟨hversion, hwords, hdscp, hecn, hflags, hfrag, -, -⟩ := hwf
  cases f with
  | version => exact hversion
  | headerLength => exact hwords
  | dscp => exact hdscp
  | ecn => exact hecn
  | flags => exact hflags
  | fragmentOffset => exact hfrag
  | totalLength | identification | ttl | protocol | headerChecksum | sourceAddress | destinationAddress =>
    exact BitVec.isLt _
  | options => exact Nat.two_pow_pos _

/-! ### The round trip -/

/-- DECODE(ENCODE(H)) where the low nibble of `header_length` is at least 5 and announces no more option bytes than H
has: `norm(H)`, with the option bytes that are announced (the two successful cases of R201). -/
theorem decodeWire_encodeHeader {p : Params} (h : Header p) (hmin : 5 ≤ h.headerLength.toNat % 16)
    (hroom : 4 * (h.headerLength.toNat % 16 - 5) ≤ h.options.length) :
    decodeWire p (encodeHeader h) =
      .ok { h.norm with options := h.options.take (4 * (h.headerLength.toNat % 16 - 5)) } := by
  have hwords := headerWords_encodeHeader h
  rw [decodeWire_eq_ok, hwords, encodeHeader_length]
  refine ⟨header_ext (fun f => ?_) ?_, by omega, hmin, by omega⟩
  · rw [fieldValue_with_options, fieldValue_norm, fieldValue_extractHeader_encodeHeader]
  · change _ = unpackOptions (encodeHeader h) (optionsLen (encodeHeader h))
    rw [optionsLen, hwords, unpackOptions_encodeHeader h hroom]

/-- Settles O33: of a well-formed Header, `norm` cuts nothing and `header_length` announces exactly the options. -/
theorem roundTripOfWellFormedHeaders : Obligations.RoundTripOfWellFormedHeaders := by
  intro p h hwf
  have hnorm : h.norm = h := norm_eq_self (fieldValue_lt_of_wellFormed hwf)
  obtain ⟨-, hwords, -, -, -, -, hmin, hoptions⟩ := hwf
  have hmod : h.headerLength.toNat % 16 = h.headerLength.toNat := Nat.mod_eq_of_lt hwords
  rw [decodeWire_encodeHeader h (by omega) (by omega), hmod, ← hoptions, List.take_length, hnorm]

/-- Settles O18: the options follow the twenty fixed bytes, and a `header_length` of 6 announces the four of them, so
the round trip gives them back whatever it cuts of the other fields. -/
theorem optionsArePreservedAtOffsetTwenty : Obligations.OptionsArePreservedAtOffsetTwenty := by
  intro s hwords hoptions
  have hlen : s.hIn.options.length = 4 := by rw [hoptions]; rfl
  have hdecode := decodeWire_encodeHeader s.hIn (by omega) (by omega)
  refine ⟨returnWire (encodeHeader s.hIn) s, encodeHeader s.hIn, exec_encode s, returnWire_result _ s,
    by rw [encodeHeader_length, hlen], (encodeHeader_drop_twenty _).trans hoptions, _, _,
    exec_decode_of_ok hdecode, returnHeader_result _ _, ?_⟩
  change s.hIn.options.take (4 * (s.hIn.headerLength.toNat % 16 - 5)) = _
  rw [hwords, hoptions]
  rfl

end Sys2Proof.Machine
end

section
/-! The words of the table and its rows: they name each other, in both directions (R80, R81, R84; log entry 5). -/

namespace Sys2Proof

@[simp] theorem Op.ofBit_bit (op : Op) : Op.ofBit op.bit = op := by
  cases op <;> rfl

@[simp] theorem Op.bit_ofBit (b : BitVec 1) : (Op.ofBit b).bit = b := by
  rcases BitVec.eq_zero_or_eq_one b with rfl | rfl <;> rfl

theorem encodeWord_fieldStep (f : Field) (op : Op) : encodeWord (f.step op) = .fieldStep op.bit f.positions := by
  cases f <;> rfl

/-- The positions of each field name that field alone. -/
theorem find_positions (f : Field) : Field.all.find? (fun g => g.positions = f.positions) = some f := by
  cases f <;> rfl

theorem decode_fieldStep (f : Field) (b : BitVec 1) : decode (.fieldStep b f.positions) = .ok (f.step (Op.ofBit b)) := by
  simp only [decode, find_positions]

/-- A field word that names a row has the positions of a field. -/
theorem fieldStep_of_decode_ok {b : BitVec 1} {positions : BitVec 168} {i : Instr}
    (h : decode (.fieldStep b positions) = .ok i) : ∃ f : Field, positions = f.positions ∧ i = f.step (Op.ofBit b) := by
  simp only [decode] at h
  split at h
  case h_1 f hfind =>
    have hpos : f.positions = positions := by simpa using List.find?_some hfind
    exact ⟨f, hpos.symm, (Except.ok.inj h).symm⟩
  case h_2 => cases h

theorem encodeWord_decodeCommand (b : BitVec 1) : encodeWord (decodeCommand b) = .command b := by
  rcases BitVec.eq_zero_or_eq_one b with rfl | rfl <;> rfl

theorem decode_encodeWord (i : Instr) : decode (encodeWord i) = .ok i := by
  rcases Machine.instr_cases i with rfl | rfl | ⟨f, op, rfl⟩
  · rfl
  · rfl
  · rw [encodeWord_fieldStep, decode_fieldStep, Op.ofBit_bit]

theorem eq_encodeWord_of_decode_ok {w : TableWord} {i : Instr} (h : decode w = .ok i) : w = encodeWord i := by
  cases w with
  | command b =>
    have hi : decodeCommand b = i := Except.ok.inj h
    rw [← hi, encodeWord_decodeCommand]
  | fieldStep b positions =>
    obtain ⟨f, rfl, rfl⟩ := fieldStep_of_decode_ok h
    rw [encodeWord_fieldStep, Op.bit_ofBit]

/-- Settles O3: encoding and decoding undo each other. -/
theorem wordsAndInstructionsAreOneToOne : Obligations.WordsAndInstructionsAreOneToOne := fun _ i =>
  ⟨eq_encodeWord_of_decode_ok, fun h => h ▸ decode_encodeWord i⟩

/-- The bits of R84 are the table's positions: no other pattern agrees with them bit by bit. -/
theorem exists_positions_of_wellFormed {b : BitVec 1} {positions : BitVec 168}
    (h : (TableWord.fieldStep b positions).wellFormed = true) : ∃ f : Field, positions = f.positions := by
  simp only [TableWord.wellFormed, List.any_eq_true, List.all_eq_true, List.mem_range, beq_iff_eq] at h
  obtain ⟨f, -, hcovers⟩ := h
  exact ⟨f, BitVec.eq_of_getMsbD_eq fun k hk => (hcovers k hk).trans (f.positions_getMsbD k hk).symm⟩

/-- Settles O4: a command word always names a row, and a field word does exactly when its positions are a field's. -/
theorem decoderAcceptsExactlyTheRowsOfTheTable : Obligations.DecoderAcceptsExactlyTheRowsOfTheTable := by
  intro w
  cases w with
  | command b => exact ⟨fun _ => rfl, fun _ => ⟨decodeCommand b, rfl⟩⟩
  | fieldStep b positions =>
    constructor
    · rintro ⟨i, h⟩
      obtain ⟨f, rfl, -⟩ := fieldStep_of_decode_ok h
      exact fieldStep_wellFormed f b
    · intro h
      obtain ⟨f, rfl⟩ := exists_positions_of_wellFormed h
      exact ⟨_, decode_fieldStep f b⟩

/-- In the table's numbering a word of at most one byte is the command of its bit 0. -/
theorem decodeTableWord_of_le {n : Nat} (w : Nat) (hn : n ≤ 8) :
    decodeTableWord n w = some (decodeCommand (BitVec.ofNat 1 w)) := by
  simp [decodeTableWord, commandOfTableWord, hn]

/-- Settles O1: `decodeCommand` sees the word's bit 0, its value modulo 2. -/
theorem commandWordSelectsOperation : Obligations.CommandWordSelectsOperation := by
  refine ⟨rfl, rfl, fun n w hn hw => ?_, fun n w hn hw => ?_⟩
  · have hbit : BitVec.ofNat 1 w = 0#1 := BitVec.eq_of_toNat_eq hw
    rw [decodeTableWord_of_le w hn, hbit]
    rfl
  · have hbit : BitVec.ofNat 1 w = 1#1 := BitVec.eq_of_toNat_eq hw
    rw [decodeTableWord_of_le w hn, hbit]
    rfl

/-- Settles O2: the four patterns are the fields' own `positions`, and no field's are empty. -/
theorem fieldWordsOfTheTableDecode : Obligations.FieldWordsOfTheTableDecode :=
  ⟨decode_fieldStep .version 0#1, decode_fieldStep .fragmentOffset 1#1, decode_fieldStep .sourceAddress 0#1,
    decode_fieldStep .options 1#1, rfl⟩

/-! ### The positions of R84 -/

theorem Field.covers_iff (f : Field) (k : Nat) : f.covers k = true ↔ f.first ≤ k ∧ k < f.first + f.width := by
  simp [Field.covers]

/-- The scalar fields lie in the fixed portion. -/
theorem Field.first_add_lt {f : Field} {i : Nat} (hscalar : f ≠ .options) (hi : i < f.width) : f.first + i < 160 := by
  cases f with
  | options => exact absurd rfl hscalar
  | _ => simp only [Field.first, Field.width] at hi ⊢; omega

/-- Each position of the fixed portion is one scalar field's, checked position by position. -/
theorem exists_unique_covers_mem_all :
    ∀ k, k < 160 → ∃ f ∈ Field.all, f ≠ .options ∧ f.covers k = true ∧ ∀ g ∈ Field.all, g.covers k = true → g = f := by
  decide +kernel

/-- Settles O5: `Field.all` lists every field. -/
theorem everyFixedBitBelongsToOneField : Obligations.EveryFixedBitBelongsToOneField := by
  intro k hk
  obtain ⟨f, -, hscalar, hcovers, hunique⟩ := exists_unique_covers_mem_all k hk
  exact ⟨f, hscalar, hcovers, fun g => hunique g g.mem_all⟩

/-- A position of the fixed portion is bit `i` of a scalar field. -/
theorem exists_field_bit {k : Nat} (hk : k < 160) : ∃ f : Field, f ≠ .options ∧ ∃ i < f.width, k = f.first + i := by
  obtain ⟨f, hscalar, hcovers, -⟩ := everyFixedBitBelongsToOneField k hk
  obtain ⟨hle, hlt⟩ := (f.covers_iff k).1 hcovers
  exact ⟨f, hscalar, k - f.first, by omega, by omega⟩

end Sys2Proof
end

section
/-! DECODE and ENCODE by wire bits: each scalar field is the bits at its positions (R84), so a buffer is ENCODE(H) when
its bits are those of H's fields and its other bytes are H's options. -/

namespace Sys2Proof.Machine

/-! ### Reads by their bits, most significant first (R12, R53) -/

theorem getMsbD_eq_testBit {n i : Nat} (v : BitVec n) (hi : i < n) : v.getMsbD i = v.toNat.testBit (n - 1 - i) := by
  rw [BitVec.getMsbD_eq_getLsbD, BitVec.testBit_toNat, decide_eq_true hi, Bool.true_and]

theorem testBit_memRead1 (w : List Byte) (a : Nat) {i : Nat} (hi : i < 8) :
    (memRead1 w a).toNat.testBit (7 - i) = wireBit w (8 * a + i) := by
  rw [wireBit, show (8 * a + i) / 8 = a by omega, show (8 * a + i) % 8 = i by omega]
  exact (getMsbD_eq_testBit _ hi).symm

theorem testBit_memRead2 (w : List Byte) (a : Nat) {i : Nat} (hi : i < 16) :
    (memRead2 w a).toNat.testBit (15 - i) = wireBit w (8 * a + i) := by
  rw [BitVec.testBit_toNat, memRead2, BitVec.getLsbD_append]
  by_cases h : i < 8
  · rw [if_neg (by omega), ← testBit_memRead1 w a h, BitVec.testBit_toNat, show 15 - i - 8 = 7 - i by omega]
  · rw [if_pos (by omega), show 8 * a + i = 8 * (a + 1) + (i - 8) by omega, ← testBit_memRead1 w (a + 1) (by omega),
      BitVec.testBit_toNat, show 7 - (i - 8) = 15 - i by omega]

theorem testBit_memRead4 (w : List Byte) (a : Nat) {i : Nat} (hi : i < 32) :
    (memRead4 w a).toNat.testBit (31 - i) = wireBit w (8 * a + i) := by
  rw [BitVec.testBit_toNat, memRead4, BitVec.getLsbD_append]
  by_cases h : i < 16
  · rw [if_neg (by omega), ← testBit_memRead2 w a h, BitVec.testBit_toNat, show 31 - i - 16 = 15 - i by omega]
  · rw [if_pos (by omega), show 8 * a + i = 8 * (a + 2) + (i - 16) by omega, ← testBit_memRead2 w (a + 2) (by omega),
      BitVec.testBit_toNat, show 15 - (i - 16) = 31 - i by omega]

/-- The high bits of a byte, as a number, are the wire bits from the byte's first position. -/
theorem testBit_memRead1_div (w : List Byte) (a : Nat) {i lo : Nat} (hi : i + lo < 8) :
    ((memRead1 w a).toNat / 2 ^ lo).testBit (7 - lo - i) = wireBit w (8 * a + i) := by
  rw [Nat.testBit_div_two_pow, ← testBit_memRead1 w a (by omega), show 7 - lo - i + lo = 7 - i by omega]

/-- The low `n` bits of a byte, as a number, are its last `n` wire bits. -/
theorem testBit_memRead1_mod (w : List Byte) (a : Nat) {i n : Nat} (hi : i < n) (hn : n ≤ 8) :
    ((memRead1 w a).toNat % 2 ^ n).testBit (n - 1 - i) = wireBit w (8 * a + (8 - n) + i) := by
  rw [Nat.testBit_mod_two_pow, decide_eq_true (by omega), Bool.true_and, Nat.add_assoc,
    ← testBit_memRead1 w a (by omega), show 7 - (8 - n + i) = n - 1 - i by omega]

/-- R160 as the low thirteen bits of bytes 6 and 7. -/
theorem fragmentOffset_toNat_eq_mod (w : List Byte) :
    (memRead1 w 6).toNat % 32 * 256 + (memRead1 w 7).toNat = (memRead2 w 6).toNat % 2 ^ 13 := by
  have := (memRead1 w 7).isLt
  rw [memRead2_toNat, show 6 + 1 = 7 from rfl]
  omega

/-! ### The extracted fields -/

theorem testBit_fieldValue_extractHeader (p : Params) (w : List Byte) {f : Field} {i : Nat} (hscalar : f ≠ .options)
    (hi : i < f.width) :
    (fieldValue (extractHeader p w) f).testBit (f.width - 1 - i) = wireBit w (f.first + i) := by
  cases f with
  | version =>
    exact (congrArg (Nat.testBit · _) (unpackVersion_toNat w p.versionFits)).trans
      (testBit_memRead1_div w 0 (lo := 4) (Nat.add_lt_add_right hi 4))
  | headerLength =>
    exact (congrArg (Nat.testBit · _) (unpackHeaderLength_toNat w p.ihlFits)).trans
      (testBit_memRead1_mod w 0 hi (by decide))
  | dscp =>
    exact (congrArg (Nat.testBit · _) (unpackDscp_toNat w p.dscpFits)).trans
      (testBit_memRead1_div w 1 (lo := 2) (Nat.add_lt_add_right hi 2))
  | ecn =>
    exact (congrArg (Nat.testBit · _) (unpackEcn_toNat w p.ecnFits)).trans
      (testBit_memRead1_mod w 1 hi (by decide))
  | flags =>
    exact (congrArg (Nat.testBit · _) (unpackFlags_toNat w p.flagsFits)).trans
      (testBit_memRead1_div w 6 (lo := 5) (Nat.add_lt_add_right hi 5))
  | fragmentOffset =>
    have hi' : i < 13 := hi
    change ((unpackFragmentOffset p.cwFrag w).toNat).testBit (12 - i) = wireBit w (51 + i)
    rw [unpackFragmentOffset_toNat w p.fragFits, fragmentOffset_toNat_eq_mod, Nat.testBit_mod_two_pow,
      decide_eq_true (by omega), Bool.true_and, show 12 - i = 15 - (3 + i) by omega, testBit_memRead2 w 6 (by omega),
      ← Nat.add_assoc]
  | ttl => exact testBit_memRead1 w 8 hi
  | protocol => exact testBit_memRead1 w 9 hi
  | totalLength => exact testBit_memRead2 w 2 hi
  | identification => exact testBit_memRead2 w 4 hi
  | headerChecksum => exact testBit_memRead2 w 10 hi
  | sourceAddress => exact testBit_memRead4 w 12 hi
  | destinationAddress => exact testBit_memRead4 w 16 hi
  | options => exact absurd rfl hscalar

/-- No extracted field has a bit above its semantic width (R39). -/
theorem fieldValue_extractHeader_lt (p : Params) (w : List Byte) (f : Field) :
    fieldValue (extractHeader p w) f < 2 ^ f.width := by
  have byte (a : Nat) := (memRead1 w a).isLt
  cases f with
  | version =>
    exact (unpackVersion_toNat w p.versionFits).trans_lt (Nat.div_lt_of_lt_mul (byte 0))
  | headerLength => exact (unpackHeaderLength_toNat w p.ihlFits).trans_lt (Nat.mod_lt _ (by decide))
  | dscp => exact (unpackDscp_toNat w p.dscpFits).trans_lt (Nat.div_lt_of_lt_mul (byte 1))
  | ecn => exact (unpackEcn_toNat w p.ecnFits).trans_lt (Nat.mod_lt _ (by decide))
  | flags => exact (unpackFlags_toNat w p.flagsFits).trans_lt (Nat.div_lt_of_lt_mul (byte 6))
  | fragmentOffset =>
    exact ((unpackFragmentOffset_toNat w p.fragFits).trans (fragmentOffset_toNat_eq_mod w)).trans_lt
      (Nat.mod_lt _ (by decide))
  | totalLength | identification | ttl | protocol | headerChecksum | sourceAddress | destinationAddress =>
    exact BitVec.isLt _
  | options => exact Nat.two_pow_pos _

/-- Settles O25: a decoded Header is the extracted one. -/
theorem decodeReadsEveryFieldBit : Obligations.DecodeReadsEveryFieldBit := by
  intro p w h f hok hscalar
  obtain ⟨rfl, -⟩ := decodeWire_eq_ok.1 hok
  exact ⟨fieldValue_extractHeader_lt p w f, fun i hi => testBit_fieldValue_extractHeader p w hscalar hi⟩

/-- The scalar fields come from the 160 bits of the fixed portion, whatever the container widths (R39). -/
theorem fieldValue_extractHeader_congr (p q : Params) {v w : List Byte}
    (hbits : ∀ k, k < 160 → wireBit v k = wireBit w k) (f : Field) :
    fieldValue (extractHeader p v) f = fieldValue (extractHeader q w) f := by
  by_cases hscalar : f = .options
  · subst hscalar; rfl
  apply Nat.eq_of_testBit_eq
  intro j
  by_cases hj : j < f.width
  · have hi : f.width - 1 - j < f.width := by omega
    have hv := testBit_fieldValue_extractHeader p v hscalar hi
    have hw := testBit_fieldValue_extractHeader q w hscalar hi
    rw [show f.width - 1 - (f.width - 1 - j) = j by omega] at hv hw
    rw [hv, hw, hbits _ (Field.first_add_lt hscalar hi)]
  · have hle : 2 ^ f.width ≤ 2 ^ j := Nat.pow_le_pow_right (by decide) (by omega)
    rw [Nat.testBit_lt_two_pow ((fieldValue_extractHeader_lt p v f).trans_le hle),
      Nat.testBit_lt_two_pow ((fieldValue_extractHeader_lt q w f).trans_le hle)]

/-! ### The encoded fields -/

/-- Settles O14: the bit at that position is the one that DECODE would read back, and the field that comes back is the
Header's own, cut to its semantic width. -/
theorem encodePlacesEveryFieldBit : Obligations.EncodePlacesEveryFieldBit := by
  intro p h f i hscalar hi
  rw [← testBit_fieldValue_extractHeader p _ hscalar hi, fieldValue_extractHeader_encodeHeader, Nat.testBit_mod_two_pow,
    decide_eq_true (by omega), Bool.true_and]

theorem wireBit_take {n k : Nat} (w : List Byte) (hk : k < 8 * n) : wireBit (w.take n) k = wireBit w k := by
  have hbyte : k / 8 < n := by omega
  simp only [wireBit, memRead1, List.getD_eq_getElem?_getD, List.getElem?_take_of_lt hbyte]

/-- A buffer is ENCODE(H) when its bits are those of H's fields and its bytes from offset 20 are H's options. -/
theorem eq_encodeHeader {p : Params} {h : Header p} {w : List Byte} (hlen : 20 ≤ w.length)
    (hbits : ∀ f : Field, f ≠ .options → ∀ i, i < f.width →
      wireBit w (f.first + i) = (fieldValue h f).testBit (f.width - 1 - i))
    (hoptions : w.drop 20 = h.options) : w = encodeHeader h := by
  have hfixed : w.take 20 = (encodeHeader h).take 20 := by
    refine ext_wireBit (by simp; omega) fun k hk => ?_
    have hk' : k < 160 := by simp at hk; omega
    rw [wireBit_take w hk', wireBit_take _ hk']
    obtain ⟨f, hscalar, i, hi, rfl⟩ := exists_field_bit hk'
    rw [hbits f hscalar i hi, encodePlacesEveryFieldBit p h f i hscalar hi]
  rw [← List.take_append_drop 20 w, hfixed, hoptions, ← encodeHeader_drop_twenty h, List.take_append_drop]

/-- Settles O15: fields that agree modulo 2 to their width have the same bits below it. -/
theorem encodeSeesOnlyTheLowBits : Obligations.EncodeSeesOnlyTheLowBits := by
  intro p q h g hfields hoptions
  refine eq_encodeHeader (by simp) (fun f hscalar i hi => ?_) ((encodeHeader_drop_twenty h).trans hoptions)
  have hlow := congrArg (Nat.testBit · (f.width - 1 - i)) (hfields f)
  simp only [Nat.testBit_mod_two_pow, show f.width - 1 - i < f.width by omega, decide_true, Bool.true_and] at hlow
  rw [encodePlacesEveryFieldBit p h f i hscalar hi, hlow]

/-- Settles O16: DECODE's extraction gives the fields of `norm` back from the bytes, and ENCODE sees no more than them. -/
theorem encodeLosesNothingButTheCutBits : Obligations.EncodeLosesNothingButTheCutBits := by
  intro p h g
  constructor
  · intro hbytes
    refine header_ext (fun f => ?_) ?_
    · rw [fieldValue_norm, fieldValue_norm, ← fieldValue_extractHeader_encodeHeader, hbytes,
        fieldValue_extractHeader_encodeHeader]
    · change h.options = g.options
      rw [← encodeHeader_drop_twenty h, hbytes, encodeHeader_drop_twenty]
  · intro hnorm
    refine encodeSeesOnlyTheLowBits p p h g (fun f => ?_) (show h.norm.options = g.norm.options by rw [hnorm])
    rw [← fieldValue_norm, hnorm, fieldValue_norm]

/-- Settles O37: `norm` by its values, and a Header whose values are in range is its own `norm`. -/
theorem normalisationCutsAndIsIdempotent : Obligations.NormalisationCutsAndIsIdempotent := fun _ h =>
  ⟨fieldValue_norm h, rfl,
    norm_eq_self fun f => by rw [fieldValue_norm]; exact Nat.mod_lt _ (Nat.two_pow_pos _), norm_eq_self⟩

/-- Settles O13: a well-formed Header has `4 × (header_length − 5)` option bytes. -/
theorem encodeLengthFollowsTheOptions : Obligations.EncodeLengthFollowsTheOptions := by
  refine fun p h => ⟨encodeHeader_length h, fun hwf => ?_⟩
  obtain ⟨-, -, -, -, -, -, hmin, hoptions⟩ := hwf
  rw [encodeHeader_length, hoptions]
  omega

end Sys2Proof.Machine
end

section
/-! The outcomes of DECODE: which input has which (R173), what of the input they depend on (R175, R176, R204), and the
round trips in both directions (R200, R201). -/

namespace Sys2Proof.Machine

/-! ### Which check fails, by the length and the low nibble of byte 0 (R152, R168, R169, R216) -/

theorem lengthError_eq_tooShort_iff (w : List Byte) : lengthError w = some .tooShort ↔ w.length < 20 := by
  rw [lengthError]
  split_ifs with h20
  all_goals simp [h20]

theorem lengthError_eq_invalidHeaderLength_iff (w : List Byte) :
    lengthError w = some .invalidHeaderLength ↔ 20 ≤ w.length ∧ byteAt w 0 % 16 < 5 := by
  rw [lengthError, headerWords_eq, ← byteAt]
  split_ifs with h20 h5
  all_goals simp; omega

theorem lengthError_eq_tooShortForOptions_iff (w : List Byte) :
    lengthError w = some .tooShortForOptions ↔
      20 ≤ w.length ∧ 5 ≤ byteAt w 0 % 16 ∧ w.length < 4 * (byteAt w 0 % 16) := by
  rw [lengthError, optionsLen_eq, headerWords_eq, ← byteAt]
  split_ifs with h20 h5 hlen
  all_goals simp; omega

theorem decodeWire_eq_error_iff {p : Params} {w : List Byte} {e : DecodeError} :
    decodeWire p w = .error e ↔ lengthError w = some e := by
  rw [decodeWire]
  cases lengthError w <;> simp

theorem exists_decodeWire_eq_ok_iff {p : Params} {w : List Byte} :
    (∃ h, decodeWire p w = .ok h) ↔ lengthError w = none := by
  rw [decodeWire]
  cases lengthError w <;> simp

/-- Settles O26: the outcome is that of the first failing check. -/
theorem decodeOutcomesPartitionTheInputs : Obligations.DecodeOutcomesPartitionTheInputs := fun _ w =>
  ⟨decodeWire_eq_error_iff.trans (lengthError_eq_tooShort_iff w),
    decodeWire_eq_error_iff.trans (lengthError_eq_invalidHeaderLength_iff w),
    decodeWire_eq_error_iff.trans (lengthError_eq_tooShortForOptions_iff w),
    exists_decodeWire_eq_ok_iff.trans (lengthError_eq_none_iff w)⟩

/-- Settles O35: `header_length` stands in the low nibble of byte 0 and the buffer has twenty bytes and the options, so
the checks compare what it announces with what is there. -/
theorem encodeThenDecodeInAllCases : Obligations.EncodeThenDecodeInAllCases := by
  intro p h
  have hwords := encodeHeader_headerLength h
  have hlen := encodeHeader_length h
  refine ⟨fun hmin => ?_, fun hmin hfew => ?_, fun hmin hexact => ?_, fun hmin hmany => ?_⟩
  · rw [decodeWire_eq_error_iff, lengthError_eq_invalidHeaderLength_iff]
    omega
  · rw [decodeWire_eq_error_iff, lengthError_eq_tooShortForOptions_iff]
    omega
  · rw [decodeWire_encodeHeader h hmin hexact.ge, ← hexact, List.take_length]
    rfl
  · exact decodeWire_encodeHeader h hmin hmany.le

/-! ### The decoded Header -/

theorem extractHeader_headerLength (p : Params) (w : List Byte) :
    (extractHeader p w).headerLength.toNat = byteAt w 0 % 16 :=
  unpackHeaderLength_toNat w p.ihlFits

/-- Where the checks pass, the options are the bytes from offset 20 on that `header_length` announces (R170). -/
theorem extractHeader_options (p : Params) {w : List Byte} (hpass : lengthError w = none) :
    (extractHeader p w).options = (w.drop 20).take (4 * (byteAt w 0 % 16 - 5)) := by
  obtain ⟨h20, h5, hlen⟩ := (lengthError_eq_none_iff w).1 hpass
  rw [← unpackOptions_eq w _ (by omega), ← optionsLen_eq]
  rfl

/-- The Header that DECODE answers, with what the passed checks say of the input. -/
theorem of_decodeWire_eq_ok {p : Params} {w : List Byte} {h : Header p} (hok : decodeWire p w = .ok h) :
    h = extractHeader p w ∧ lengthError w = none ∧ h.headerLength.toNat = byteAt w 0 % 16 := by
  obtain ⟨rfl, -⟩ := decodeWire_eq_ok.1 hok
  exact ⟨rfl, exists_decodeWire_eq_ok_iff.1 ⟨_, hok⟩, extractHeader_headerLength p w⟩

/-- Settles O38: the third check bounds `4 × header_length` by the input, and the nibble bounds it by 60. -/
theorem decodedLengthIsBounded : Obligations.DecodedLengthIsBounded := by
  intro p w h hok
  obtain ⟨-, hpass, hwords⟩ := of_decodeWire_eq_ok hok
  obtain ⟨-, h5, hlen⟩ := (lengthError_eq_none_iff w).1 hpass
  omega

theorem decodeWire_options_length {p : Params} {w : List Byte} {h : Header p} (hok : decodeWire p w = .ok h) :
    h.options.length = 4 * (h.headerLength.toNat - 5) := by
  obtain ⟨rfl, -, hwords⟩ := of_decodeWire_eq_ok hok
  rw [hwords, ← optionsLen_eq]
  exact unpackOptions_length w _

theorem decodeWire_wellFormed {p : Params} {w : List Byte} {h : Header p} (hok : decodeWire p w = .ok h) :
    h.WellFormed := by
  have hmin := (decodedLengthIsBounded p w h hok).1
  have hoptions := decodeWire_options_length hok
  obtain ⟨rfl, -, -⟩ := of_decodeWire_eq_ok hok
  have range := fieldValue_extractHeader_lt p w
  exact ⟨range .version, range .headerLength, range .dscp, range .ecn, range .flags, range .fragmentOffset, by omega,
    hoptions⟩

/-- Settles O27: the fields are in range, the second check gives `header_length` its lower bound and its nibble the upper
one, and the options are as many as it announces. -/
theorem decodedHeadersAreWellFormed : Obligations.DecodedHeadersAreWellFormed := by
  refine ⟨fun p w h hok => ?_, fun s h hok => ⟨_, exec_decode_of_ok hok, returnHeader_result h s, rfl⟩⟩
  have hwf := decodeWire_wellFormed hok
  refine ⟨hwf, ?_⟩
  obtain ⟨-, hwords, -, -, -, -, hmin, hoptions⟩ := hwf
  exact ⟨hmin, by omega, hoptions⟩

/-- Settles O36: the bits of the decoded fields are those of the fixed portion, and its options are the bytes after it,
so ENCODE writes the same bytes again. -/
theorem reverseRoundTrip : Obligations.ReverseRoundTrip := by
  intro p w h hok
  obtain ⟨hmin, hmax⟩ := decodedLengthIsBounded p w h hok
  obtain ⟨rfl, hpass, hwords⟩ := of_decodeWire_eq_ok hok
  have hbytes : encodeHeader (extractHeader p w) = w.take (4 * (extractHeader p w).headerLength.toNat) := by
    refine (eq_encodeHeader (by simp; omega) (fun f hscalar i hi => ?_) ?_).symm
    · have hfixed := Field.first_add_lt hscalar hi
      rw [wireBit_take w (by omega), testBit_fieldValue_extractHeader p w hscalar hi]
    · rw [extractHeader_options p hpass, hwords, List.drop_take, Nat.mul_sub]
  exact ⟨hbytes, fun hlen => by rw [hbytes, ← hlen, List.take_length]⟩

/-! ### What the outcome depends on -/

/-- Settles O31: the checks look at the input alone, and so does each value that is extracted. -/
theorem decodeDoesNotDependOnContainerWidths : Obligations.DecodeDoesNotDependOnContainerWidths := by
  refine fun p q w => ⟨fun e herr => decodeWire_eq_error_iff.2 (decodeWire_eq_error_iff.1 herr), fun h hok => ?_⟩
  obtain ⟨rfl, hpass, -⟩ := of_decodeWire_eq_ok hok
  exact ⟨_, decodeWire_of_lengthError_eq_none q hpass, rfl, fieldValue_extractHeader_congr p q fun _ _ => rfl⟩

theorem memRead1_append {w : List Byte} (t : List Byte) {a : Nat} (ha : a < w.length) :
    memRead1 (w ++ t) a = memRead1 w a := by
  rw [memRead1, memRead1, List.getD_append _ _ _ _ ha]

/-- What is appended leaves the fixed portion as it is. -/
theorem byteAt_append {w : List Byte} (t : List Byte) {a : Nat} (ha : a < w.length) : byteAt (w ++ t) a = byteAt w a :=
  congrArg BitVec.toNat (memRead1_append t ha)

theorem wireBit_append {w : List Byte} (t : List Byte) {k : Nat} (hk : k / 8 < w.length) :
    wireBit (w ++ t) k = wireBit w k := by
  rw [wireBit, memRead1_append t hk, wireBit]

theorem decodeWire_append_of_ok {p : Params} {w : List Byte} {h : Header p} (hok : decodeWire p w = .ok h)
    (t : List Byte) : decodeWire p (w ++ t) = .ok h := by
  obtain ⟨rfl, hpass, -⟩ := of_decodeWire_eq_ok hok
  obtain ⟨h20, h5, hlen⟩ := (lengthError_eq_none_iff w).1 hpass
  have hbyte : byteAt (w ++ t) 0 = byteAt w 0 := byteAt_append t (by omega)
  have hpass' : lengthError (w ++ t) = none := by
    rw [lengthError_eq_none_iff, hbyte, List.length_append]
    omega
  rw [decodeWire_of_lengthError_eq_none p hpass']
  refine congrArg Except.ok (header_ext (fieldValue_extractHeader_congr p p fun k hk => wireBit_append t (by omega)) ?_)
  rw [extractHeader_options p hpass', extractHeader_options p hpass, hbyte, List.drop_append_of_le_length h20,
    List.take_append_of_le_length (by rw [List.length_drop]; omega)]

theorem decodeWire_append_of_invalidHeaderLength {p : Params} {w : List Byte}
    (herr : decodeWire p w = .error .invalidHeaderLength) (t : List Byte) :
    decodeWire p (w ++ t) = .error .invalidHeaderLength := by
  rw [decodeWire_eq_error_iff, lengthError_eq_invalidHeaderLength_iff] at herr ⊢
  rw [byteAt_append t (by omega), List.length_append]
  omega

/-- Settles O29: appending leaves byte 0 alone, so only the comparison of the length with `4 × hl` can turn out
otherwise. -/
theorem appendingBytesMovesTheOutcome : Obligations.AppendingBytesMovesTheOutcome := by
  refine fun p w t => ⟨fun h hok => decodeWire_append_of_ok hok t,
    fun herr => decodeWire_append_of_invalidHeaderLength herr t, fun herr => ?_⟩
  rw [decodeWire_eq_error_iff, lengthError_eq_tooShortForOptions_iff] at herr
  have hbyte : byteAt (w ++ t) 0 = byteAt w 0 := byteAt_append t (by omega)
  rw [decodeWire_eq_error_iff, exists_decodeWire_eq_ok_iff, lengthError_eq_tooShortForOptions_iff,
    lengthError_eq_none_iff, hbyte, List.length_append]
  omega

/-- Settles O28: the first `4 × header_length` bytes are ENCODE of the Header, which decodes to it, and the rest of the
input is appended to them. -/
theorem bytesAfterTheHeaderAreIgnored : Obligations.BytesAfterTheHeaderAreIgnored := by
  intro p v w h hok _ hagree
  have hheader : encodeHeader h = v.take (4 * h.headerLength.toNat) :=
    (reverseRoundTrip p w h hok).1.trans hagree.symm
  have hfront : decodeWire p (v.take (4 * h.headerLength.toNat)) = .ok h :=
    hheader ▸ roundTripOfWellFormedHeaders p h (decodeWire_wellFormed hok)
  rw [← List.take_append_drop (4 * h.headerLength.toNat) v]
  exact decodeWire_append_of_ok hfront _

/-- No outcome needs more than the first 60 bytes (R176): with 60 there, both outcomes that remain outlast appending. -/
theorem decodeWire_take_sixty (p : Params) (w : List Byte) : decodeWire p (w.take 60) = decodeWire p w := by
  by_cases hlen : w.length ≤ 60
  · rw [List.take_of_length_le hlen]
  have hwindow : (w.take 60).length = 60 := by rw [List.length_take]; omega
  obtain ⟨e, herr, hdecode⟩ | ⟨-, hdecode⟩ := decodeWire_cases p (w.take 60)
  · have hinvalid : e = .invalidHeaderLength := by
      cases e with
      | invalidHeaderLength => rfl
      | tooShort => rw [lengthError_eq_tooShort_iff] at herr; omega
      | tooShortForOptions => rw [lengthError_eq_tooShortForOptions_iff] at herr; omega
    subst hinvalid
    rw [hdecode, ← decodeWire_append_of_invalidHeaderLength hdecode (w.drop 60), List.take_append_drop]
  · rw [hdecode, ← decodeWire_append_of_ok hdecode (w.drop 60), List.take_append_drop]

/-- Lists that agree at every index below `n` have the same first `n` elements. -/
theorem take_eq_of_getElem?_eq {v w : List Byte} {n : Nat} (h : ∀ i, i < n → v[i]? = w[i]?) : v.take n = w.take n := by
  refine List.ext_getElem? fun i => ?_
  rw [List.getElem?_take, List.getElem?_take]
  split_ifs with hi
  · exact h i hi
  · rfl

/-- Settles O30: what the ports present agrees with the input on its first 60 bytes. -/
theorem theInputWindowLosesNothing : Obligations.TheInputWindowLosesNothing := by
  intro p w t hlen hwindow hagree
  have hwin := p.decWinFits
  have htake : (sampleWire t).take 60 = w.take 60 := by
    rw [sampleWire, hlen, List.take_take, take_eq_of_getElem?_eq fun i hi => hagree i (by omega) (by omega),
      ← List.take_take, List.take_length]
  rw [← decodeWire_take_sixty, htake, decodeWire_take_sixty]

end Sys2Proof.Machine
end

section
/-! The two operations as instructions, the frame of every instruction, and the output ports (R30, R32, R217). -/

namespace Sys2Proof.Machine

/-! ### ENCODE and DECODE -/

/-- Settles O11: `returnWire` writes these three fields. -/
theorem encodeChangesOnlyItsResult : Obligations.EncodeChangesOnlyItsResult := exec_encode

/-- Settles O17: on that operand ENCODE is one closed computation. -/
theorem workedExampleEncodesExactly : Obligations.WorkedExampleEncodesExactly := by
  intro s hoperand
  refine ⟨_, exec_encode s, ?_⟩
  rw [returnWire_result, hoperand]
  decide

theorem exec_decode_of_error {s : State} {e : DecodeError} (herr : lengthError s.wIn = some e) :
    exec .decode s = .next (raise e s) := by
  change execDecode s = .next (raise e s)
  simp only [execDecode, decodeWire_eq_error_iff.2 herr]

/-- Settles O20: the first check fails. -/
theorem fewerThanTwentyBytesAreTooShort : Obligations.FewerThanTwentyBytesAreTooShort := fun _ hlen =>
  exec_decode_of_error ((lengthError_eq_tooShort_iff _).2 hlen)

/-- Settles O21: the second check fails. -/
theorem headerLengthBelowFiveIsInvalid : Obligations.HeaderLengthBelowFiveIsInvalid := fun _ h20 hwords =>
  exec_decode_of_error ((lengthError_eq_invalidHeaderLength_iff _).2 ⟨h20, Nat.lt_succ_of_le hwords⟩)

/-- Settles O22: the third check fails. -/
theorem missingOptionBytesAreTooShortForOptions : Obligations.MissingOptionBytesAreTooShortForOptions :=
  fun _ h20 h6 hlen =>
    exec_decode_of_error ((lengthError_eq_tooShortForOptions_iff _).2 ⟨h20, Nat.le_of_succ_le h6, hlen⟩)

/-- Settles O23: the checks pass, so the result is the extracted Header, whose first eight fields are these parts of
bytes 0 to 7. -/
theorem decodeExtractsTheFirstEightFields : Obligations.DecodeExtractsTheFirstEightFields := by
  intro s h20 h5 hlen
  have hpass : lengthError s.wIn = none := (lengthError_eq_none_iff _).2 ⟨h20, h5, hlen⟩
  exact ⟨_, exec_decode_of_lengthError_eq_none hpass,
    -- version, header_length, dscp and ecn (R153 to R156)
    unpackVersion_toNat _ Config.params.versionFits, unpackHeaderLength_toNat _ Config.params.ihlFits,
    unpackDscp_toNat _ Config.params.dscpFits, unpackEcn_toNat _ Config.params.ecnFits,
    -- total_length and identification (R157, R158)
    memRead2_toNat _ 2, memRead2_toNat _ 4,
    -- flags and fragment_offset (R159, R160)
    unpackFlags_toNat _ Config.params.flagsFits, unpackFragmentOffset_toNat _ Config.params.fragFits⟩

/-- Settles O34: the machine's two instructions are the two functions of the round trip. -/
theorem machineRoundTrip : Obligations.MachineRoundTrip := fun s hwf =>
  ⟨_, _, exec_encode s, returnWire_result _ s, _,
    exec_decode_of_ok (roundTripOfWellFormedHeaders Config.params s.hIn hwf), returnHeader_result _ _⟩

/-! ### What every instruction does and leaves -/

/-- Settles O45: each of the things an instruction can do ends in a state. -/
theorem everyInstructionCompletes : Obligations.EveryInstructionCompletes := by
  intro i s
  rcases exec_cases i s with h | ⟨_, -, h⟩ | ⟨_, h⟩ | ⟨_, h⟩ | ⟨_, h⟩
  all_goals exact ⟨_, h⟩

/-- The states an instruction can answer. -/
theorem exec_next_cases {i : Instr} {s t : State} (ht : exec i s = .next t) :
    t = returnWire (encodeHeader s.hIn) s ∨
    (∃ h, decodeWire Config.params s.wIn = .ok h ∧ t = returnHeader h s) ∨
    (∃ e, t = raise e s) ∨ (∃ g, t = packStep g s) ∨ (∃ g, t = unpackStep none g s) := by
  have answer {u : State} (hu : exec i s = .next u) : t = u := Host.Outcome.next.inj (ht.symm.trans hu)
  rcases exec_cases i s with hu | ⟨h, hok, hu⟩ | ⟨e, hu⟩ | ⟨g, hu⟩ | ⟨g, hu⟩
  · exact .inl (answer hu)
  · exact .inr (.inl ⟨h, hok, answer hu⟩)
  · exact .inr (.inr (.inl ⟨e, answer hu⟩))
  · exact .inr (.inr (.inr (.inl ⟨g, answer hu⟩)))
  · exact .inr (.inr (.inr (.inr ⟨g, answer hu⟩)))

/-- Settles O32: an error is on the ports after `raise` alone, which only delivers it. -/
theorem anErrorChangesNothingElse : Obligations.AnErrorChangesNothingElse := by
  intro i s t e ht herr
  rcases exec_next_cases ht with rfl | ⟨h, -, rfl⟩ | ⟨e', rfl⟩ | ⟨g, rfl⟩ | ⟨g, rfl⟩
  · simp at herr
  · simp at herr
  · obtain rfl : e' = e := by simpa using herr
    rfl
  · simp at herr
  · simp at herr

/-- Settles O46: an instruction delivers one result, or is a field's step and delivers none. -/
theorem operandsNeverChange : Obligations.OperandsNeverChange := by
  intro i s t ht
  rcases exec_next_cases ht with rfl | ⟨h, -, rfl⟩ | ⟨e, rfl⟩ | ⟨g, rfl⟩ | ⟨g, rfl⟩
  · exact ⟨rfl, rfl, rfl, rfl, .inr ⟨_, rfl, rfl⟩⟩
  · exact ⟨rfl, rfl, rfl, rfl, .inr ⟨_, rfl, rfl⟩⟩
  · exact ⟨rfl, rfl, rfl, rfl, .inr ⟨_, rfl, rfl⟩⟩
  · exact ⟨rfl, rfl, rfl, rfl, .inl ⟨rfl, rfl⟩⟩
  · exact ⟨rfl, rfl, rfl, rfl, .inl ⟨rfl, rfl⟩⟩

/-! ### Sound results -/

theorem sound_encoded (h : Header Config.params) : (Result.encoded (encodeHeader h)).Sound := by
  simp [Result.Sound]

theorem sound_decoded {w : List Byte} {h : Header Config.params} (hok : decodeWire Config.params w = .ok h) :
    (Result.decoded h).Sound :=
  decodeWire_wellFormed hok

theorem forall_sound_append {rs : List Result} {r : Result} (hrs : ∀ r ∈ rs, r.Sound) (hr : r.Sound) :
    ∀ r' ∈ rs ++ [r], r'.Sound :=
  List.forall_mem_append.2 ⟨hrs, List.forall_mem_singleton.2 hr⟩

/-- A state whose valid result is sound, the last one of the list, and held where its kind says, agrees with it. -/
theorem resultsAgree_of_result {s : State} {rs : List Result} {r : Result} (hresult : s.result = some r)
    (hresults : s.results = rs ++ [r]) (hrs : ∀ r ∈ rs, r.Sound) (hr : r.Sound)
    (hwire : ∀ w, r = .encoded w → s.wOut = w) (hrecord : ∀ h, r = .decoded h → s.hOut = h) : s.ResultsAgree := by
  refine ⟨hresults ▸ forall_sound_append hrs hr, ?_⟩
  simp only [hresult, Option.some.injEq]
  exact ⟨fun r' h => by rw [hresults, List.getLast?_concat, h], hwire, hrecord⟩

/-- A state with no valid result agrees with any sound list. -/
theorem resultsAgree_of_none {s : State} (hresult : s.result = none) (hsound : ∀ r ∈ s.results, r.Sound) :
    s.ResultsAgree := by
  refine ⟨hsound, ?_⟩
  simp [hresult]

/-- Settles O60: a returned buffer or record is written before it is delivered, and a field's step leaves no result
valid. -/
theorem everyInstructionKeepsResultsInAgreement : Obligations.EveryInstructionKeepsResultsInAgreement := by
  rintro i s t ⟨hsound, -⟩ ht
  rcases exec_next_cases ht with rfl | ⟨h, hok, rfl⟩ | ⟨e, rfl⟩ | ⟨g, rfl⟩ | ⟨g, rfl⟩
  · exact resultsAgree_of_result rfl rfl hsound (sound_encoded _) (fun _ => Result.encoded.inj) nofun
  · exact resultsAgree_of_result rfl rfl hsound (sound_decoded hok) nofun (fun _ => Result.decoded.inj)
  · exact resultsAgree_of_result rfl rfl hsound trivial nofun nofun
  · exact resultsAgree_of_none rfl hsound
  · exact resultsAgree_of_none rfl hsound

/-! ### The ports -/

theorem portStatus_of_result {s : State} {r : Result} (h : s.result = some r) : portStatus s = r.status.code := by
  simp only [portStatus, h]

theorem portWire_of_encoded {s : State} {w : List Byte} (h : s.result = some (.encoded w)) : portWire s = w := by
  simp only [portWire, h]

theorem portHeader_of_decoded {s : State} {h : Header Config.params} (hr : s.result = some (.decoded h)) :
    portHeader s = h := by
  simp only [portHeader, hr]

/-- Settles O55: the port shows the code of the valid result's status. -/
theorem statusPortShowsTheCodes : Obligations.StatusPortShowsTheCodes := fun _ =>
  ⟨fun _ => portStatus_of_result, fun _ => portStatus_of_result, portStatus_of_result, portStatus_of_result,
    portStatus_of_result⟩

/-- Inside a list the element does not depend on what stands in for the ones outside. -/
theorem getD_eq_memRead1 {w : List Byte} {i : Nat} (hi : i < w.length) (d : Byte) : w.getD i d = memRead1 w i := by
  rw [List.getD_eq_getElem _ _ hi, memRead1_of_lt w i hi]

/-- R170: option `i` of a decoded Header is the byte at offset `20 + i`. -/
theorem getD_options_of_decodeWire {p : Params} {w : List Byte} {h : Header p} (hok : decodeWire p w = .ok h) {i : Nat}
    (hi : i < h.options.length) (d : Byte) : h.options.getD i d = memRead1 w (20 + i) := by
  rw [List.getD_eq_getElem _ _ hi]
  obtain ⟨rfl, -, -⟩ := of_decodeWire_eq_ok hok
  simp [extractHeader, unpackOptions]

/-- Settles O56: the ports read the valid result, within the lengths that they tell. -/
theorem portsCarryTheResult : Obligations.PortsCarryTheResult := by
  refine fun s => ⟨⟨_, exec_encode s, ?_⟩, fun h hok => ⟨_, exec_decode_of_ok hok, ?_⟩⟩
  · have hwire := portWire_of_encoded (returnWire_result (encodeHeader s.hIn) s)
    simp only [portLen, portByte, hwire]
    exact ⟨encodeHeader_length s.hIn, fun i hi => getD_eq_memRead1 hi _⟩
  · have hheader := portHeader_of_decoded (returnHeader_result h s)
    simp only [portOptionsLen, portOption, hheader]
    exact ⟨trivial, decodeWire_options_length hok, fun i hi => getD_options_of_decodeWire hok hi _⟩

end Sys2Proof.Machine
end

section
/-! Two- and four-byte writes by the byte reads after them (R13, R53). -/

namespace Sys2Proof.Machine

theorem memRead1_memWrite2 (w : List Byte) (a b : Nat) (v : BitVec 16) (ha : a + 1 < w.length) :
    memRead1 (memWrite2 w a v) b =
      if b = a + 1 then v.extractLsb' 0 8 else if b = a then v.extractLsb' 8 8 else memRead1 w b := by
  rw [memWrite2, memRead1_memWrite1 _ _ _ _ (by rw [memWrite1_length]; exact ha), memRead1_memWrite1 _ _ _ _ (by omega)]

theorem memRead1_memWrite4 (w : List Byte) (a b : Nat) (v : BitVec 32) (ha : a + 3 < w.length) :
    memRead1 (memWrite4 w a v) b =
      if b = a + 3 then (v.extractLsb' 0 16).extractLsb' 0 8 else if b = a + 2 then (v.extractLsb' 0 16).extractLsb' 8 8
      else if b = a + 1 then (v.extractLsb' 16 16).extractLsb' 0 8
      else if b = a then (v.extractLsb' 16 16).extractLsb' 8 8 else memRead1 w b := by
  rw [memWrite4, memRead1_memWrite2 _ _ _ _ (by rw [memWrite2_length]; exact ha), memRead1_memWrite2 _ _ _ _ (by omega)]

/-- Settles O54: each byte after the write is read by one of the branches of `memRead1_memWrite2` and
`memRead1_memWrite4`, and a value is put together again from its bytes. -/
theorem writesAreReadBackBigEndian : Obligations.WritesAreReadBackBigEndian := by
  constructor
  · intro w a v ha
    have hhi : memRead1 (memWrite2 w a v) a = v.extractLsb' 8 8 := by simp [memRead1_memWrite2 w a _ v ha]
    have hlo : memRead1 (memWrite2 w a v) (a + 1) = v.extractLsb' 0 8 := by simp [memRead1_memWrite2 w a _ v ha]
    refine ⟨memRead2_of_bytes hhi hlo, by rw [byteAt, hhi, hi_toNat], by rw [byteAt, hlo, lo_toNat],
      fun b hne hne' => ?_⟩
    rw [memRead1_memWrite2 w a b v ha, if_neg hne', if_neg hne]
  · intro w a v ha
    have read (b : Nat) := memRead1_memWrite4 w a b v ha
    have h0 : memRead1 (memWrite4 w a v) a = (v.extractLsb' 16 16).extractLsb' 8 8 := by simp [read]
    have h1 : memRead1 (memWrite4 w a v) (a + 1) = (v.extractLsb' 16 16).extractLsb' 0 8 := by simp [read]
    have h2 : memRead1 (memWrite4 w a v) (a + 2) = (v.extractLsb' 0 16).extractLsb' 8 8 := by simp [read]
    have h3 : memRead1 (memWrite4 w a v) (a + 3) = (v.extractLsb' 0 16).extractLsb' 0 8 := by simp [read]
    refine ⟨memRead4_of_halves (memRead2_of_bytes h0 h1) (memRead2_of_bytes h2 h3),
      by rw [byteAt, h0, hi16_hi_toNat], by rw [byteAt, h1, hi16_lo_toNat], by rw [byteAt, h2, lo16_hi_toNat],
      by rw [byteAt, h3, lo16_lo_toNat], fun b hb => ?_⟩
    rw [read, if_neg (by omega), if_neg (by omega), if_neg (by omega), if_neg (by omega)]

end Sys2Proof.Machine
end

section
/-! Steps and runs: a step is one transaction, whole, whose result is that of its own operands, and the codec is idle
after it (R7, R22, R205, R220, R244). -/

namespace Sys2Proof.Machine

/-! ### One step -/

/-- Settles O8: a step with no transaction to come is `tick`. -/
theorem idleStepChangesNothing : Obligations.IdleStepChangesNothing := by
  intro s hprogram
  rcases step_cases s with ⟨-, hstep⟩ | ⟨t, rest, hcons, -⟩
  · exact hstep
  · rw [hprogram] at hcons
    cases hcons

theorem step_of_cons {s : State} {t : Transaction} {rest : List Transaction} (h : s.program = t :: rest) :
    step s = transact t rest s := by
  simp only [step, h]

/-- A command's instruction answers a next state, and what is left of it after the release is the result of R120 or R150
in the list. -/
theorem exec_decodeCommand (b : BitVec 1) (s : State) :
    ∃ u, exec (decodeCommand b) s = .next u ∧ release u = release (deliver (commandResult b s.hIn s.wIn) s) := by
  unfold decodeCommand commandResult
  cases Op.ofBit b with
  | encode => exact ⟨_, exec_encode s, rfl⟩
  | decode =>
    rcases execDecode_cases s with ⟨h, hok, hexec⟩ | ⟨e, herr, hexec⟩
    · exact ⟨_, hexec, by simp only [hok]; rfl⟩
    · exact ⟨_, hexec, by simp only [herr]; rfl⟩

/-- What a step leaves of the transaction that it runs: its result in the list. -/
theorem step_eq_of_cons {s : State} {t : Transaction} {rest : List Transaction} (h : s.program = t :: rest) :
    step s = .next (release (deliver (transactionResult t) (tick (present t rest s)))) := by
  obtain ⟨u, hexec, hu⟩ := exec_decodeCommand t.cmdOp (tick (present t rest s))
  rw [step_of_cons h, transact_next hexec, hu]
  rfl

theorem exists_step_eq_next (s : State) : ∃ u, step s = .next u := by
  rcases step_cases s with ⟨-, h⟩ | ⟨t, rest, hprogram, -⟩
  · exact ⟨_, h⟩
  · exact ⟨_, step_eq_of_cons hprogram⟩

theorem idle_release (s : State) : (release s).Idle := ⟨rfl, rfl, rfl, rfl, rfl⟩

/-- Settles O6: presenting the transaction writes these fields of the state, and releasing the codec clears them. -/
theorem stepRunsTheDecodedInstruction : Obligations.StepRunsTheDecodedInstruction := by
  intro s t rest i hprogram hdecode
  obtain rfl : decodeCommand t.cmdOp = i := Except.ok.inj hdecode
  obtain ⟨u, hexec, -⟩ := exec_decodeCommand t.cmdOp (tick (present t rest s))
  exact ⟨u, hexec, (step_of_cons hprogram).trans (transact_next hexec)⟩

/-- A placed command word is that of a transaction with the operands that the codec holds, so presenting it changes
nothing. -/
theorem step_withFetchWord {s : State} {n w : Nat} {b : BitVec 1} {u : State} (hprogram : s.program = [])
    (hword : commandOfTableWord n w = some b) (hexec : exec (decodeCommand b) (tick s) = .next u) :
    step (s.withFetchWord n w) = .next (release u) := by
  obtain ⟨program, hIn, wIn, result, wOut, hOut, results, freeCtr⟩ := s
  obtain rfl : program = [] := hprogram
  simp only [State.withFetchWord, hword]
  refine (step_of_cons rfl).trans (transact_next ?_)
  simpa only [present, sampleHeader, sampleWire, List.take_length] using hexec

/-- Settles O7: the word that decodes to `i` is the command word of `i`. -/
theorem placedWordRunsNext : Obligations.PlacedWordRunsNext := by
  intro s n w i hprogram hdecode
  obtain ⟨b, hword, rfl⟩ := Option.map_eq_some_iff.1 hdecode
  obtain ⟨u, hexec, -⟩ := exec_decodeCommand b (tick s)
  exact ⟨u, hexec, step_withFetchWord hprogram hword hexec⟩

/-- Settles O40: a step's result is made of the transaction alone. -/
theorem resultDependsOnlyOnTheOperands : Obligations.ResultDependsOnlyOnTheOperands :=
  fun _ _ _ _ _ hprogram hprogram' =>
    ⟨_, _, _, step_eq_of_cons hprogram, step_eq_of_cons hprogram', rfl, rfl, rfl⟩

/-- Settles O41: the arrays that differ past the stated lengths are the same once they are cut to them. -/
theorem bytesPastTheStatedLengthsAreIgnored : Obligations.BytesPastTheStatedLengthsAreIgnored := by
  intro s t u rest hop hscalar hoptionsLen hwLen hoptions hwire
  have hheader : sampleHeader u = sampleHeader t := by
    rw [sampleHeader, sampleHeader, hoptionsLen, take_eq_of_getElem?_eq hoptions, ← hscalar]
  have hbytes : sampleWire u = sampleWire t := by
    rw [sampleWire, sampleWire, hwLen, take_eq_of_getElem?_eq hwire]
  rw [step_of_cons rfl, step_of_cons rfl, transact, transact, present, present, hop, hheader, hbytes]

/-- The two values of the command bit, with the operation that each asks for (R80). -/
theorem decodeCommand_bit_cases (b : BitVec 1) :
    b = 0#1 ∧ decodeCommand b = .encode ∨ b = 1#1 ∧ decodeCommand b = .decode := by
  rcases BitVec.eq_zero_or_eq_one b with rfl | rfl
  · exact .inl ⟨rfl, rfl⟩
  · exact .inr ⟨rfl, rfl⟩

/-- Settles O44: the command bit is 0 or 1, and a table word decodes by its command bit alone. -/
theorem onlyEncodeAndDecodeRun : Obligations.OnlyEncodeAndDecodeRun := by
  refine ⟨fun s => ?_, fun n w i hdecode => ?_⟩
  · rcases step_cases s with hidle | ⟨t, rest, hprogram, -⟩
    · exact .inl hidle
    · obtain ⟨u, hexec, -⟩ := exec_decodeCommand t.cmdOp (tick (present t rest s))
      exact .inr ⟨t, rest, _, u, hprogram, decodeCommand_bit_cases t.cmdOp, hexec, (step_of_cons hprogram).trans (transact_next hexec),
        idle_release u⟩
  · obtain ⟨b, -, rfl⟩ := Option.map_eq_some_iff.1 hdecode
    exact decodeCommand_cases b

/-! ### The invariant -/

/-- Settles O9: the reset state lists no transaction and no result, and its result field is `none`. -/
theorem resetLeavesTheCodecIdle : Obligations.ResetLeavesTheCodecIdle := ⟨rfl, rfl, rfl⟩

/-- Settles O57: no result is delivered yet, and the fields are those of an idle codec. -/
theorem resetMeetsTheInvariant : Obligations.ResetMeetsTheInvariant :=
  ⟨List.forall_mem_nil _, rfl, rfl, rfl, rfl, rfl⟩

/-- The result of a transaction is sound, whatever its operands are (R121, R171). -/
theorem sound_transactionResult (t : Transaction) : (transactionResult t).Sound := by
  unfold transactionResult commandResult
  cases Op.ofBit t.cmdOp with
  | encode => exact sound_encoded _
  | decode =>
    dsimp only
    split
    case h_1 h hok => exact sound_decoded hok
    case h_2 => trivial

/-- Settles O58: an idle step keeps both parts; any other adds one sound result and releases the codec. -/
theorem everyStepKeepsTheInvariant : Obligations.EveryStepKeepsTheInvariant := by
  rintro s s' ⟨hsound, hidle⟩ hstep
  rcases step_cases s with ⟨-, htick⟩ | ⟨t, rest, hprogram, -⟩
  · obtain rfl : tick s = s' := Host.Outcome.next.inj (htick.symm.trans hstep)
    exact ⟨hsound, hidle⟩
  · obtain rfl := Host.Outcome.next.inj ((step_eq_of_cons hprogram).symm.trans hstep)
    exact ⟨forall_sound_append hsound (sound_transactionResult t), idle_release _⟩

/-! ### Runs -/

/-- Every run ends in a state. -/
theorem safeRun (k : Nat) (s : State) : SafeRun k s := by
  induction k generalizing s with
  | zero => exact ⟨s, rfl⟩
  | succ k ih =>
    obtain ⟨u, hstep⟩ := exists_step_eq_next s
    obtain ⟨s', hrun⟩ := ih u
    exact ⟨s', (run_succ hstep).trans hrun⟩

/-- Settles O43: every step goes on. -/
theorem commandsNeverFaultOrRefuse : Obligations.CommandsNeverFaultOrRefuse := by
  refine ⟨nofun, fun s r hrefused => ?_, fun s k => safeRun k s⟩
  obtain ⟨u, hstep⟩ := exists_step_eq_next s
  rw [hstep] at hrefused
  cases hrefused

/-- Running a whole program: nothing is left to come, each transaction's own result is in the list, in order, the counter
has advanced once for each, and an idle codec is idle again. -/
theorem run_program (ts : List Transaction) (s : State) (hprogram : s.program = ts) :
    ∃ u, Host.Core.run Sys2Proof.core ts.length s = .next u ∧ u.program = [] ∧
      u.results = s.results ++ ts.map transactionResult ∧ u.freeCtr = s.freeCtr + ts.length ∧ (s.Idle → u.Idle) := by
  induction ts generalizing s with
  | nil => exact ⟨s, rfl, hprogram, (List.append_nil _).symm, rfl, id⟩
  | cons t ts ih =>
    obtain ⟨u, hrun, hend, hresults, hctr, hidle⟩ :=
      ih (release (deliver (transactionResult t) (tick (present t ts s)))) rfl
    refine ⟨u, (run_succ (step_eq_of_cons hprogram)).trans hrun, hend, ?_, ?_, fun _ => hidle (idle_release _)⟩
    · rw [hresults, List.map_cons, release_results, deliver_results, tick_results, present_results, List.append_assoc]
      rfl
    · rw [hctr, release_freeCtr, deliver_freeCtr, tick_freeCtr, present_freeCtr, List.length_cons]
      omega

/-- Settles O39: `run_program`, of the state's own program. -/
theorem runDeliversEachTransactionsOwnResult : Obligations.RunDeliversEachTransactionsOwnResult := by
  intro s
  obtain ⟨u, hrun, hend, hresults, -⟩ := run_program s.program s rfl
  exact ⟨u, hrun, hend, hresults⟩

/-- Settles O42: both runs deliver the results of the same transactions, and the lists of transactions are permutations
of each other. -/
theorem reorderedTransactionsHaveTheSameResults : Obligations.ReorderedTransactionsHaveTheSameResults := by
  intro s ts hperm
  obtain ⟨u, hrun, -, hresults, -⟩ := run_program s.program s rfl
  obtain ⟨u', hrun', -, hresults', -⟩ := run_program ts { s with program := ts } rfl
  refine ⟨u, u', hrun, hrun', ?_⟩
  rw [hresults, hresults']
  exact (hperm.map transactionResult).append_left s.results

/-- An idle codec is its program, its list of results and its counter. -/
theorem State.eq_of_idle {s u : State} (hs : s.Idle) (hu : u.Idle) (hprogram : s.program = u.program)
    (hresults : s.results = u.results) (hctr : s.freeCtr = u.freeCtr) : s = u := by
  obtain ⟨hIn, wIn, result, wOut, hOut⟩ := hs
  obtain ⟨hIn', wIn', result', wOut', hOut'⟩ := hu
  cases s
  cases u
  simp_all

/-- Settles O59: the codec is idle before the run and after it, and `run_program` says the rest. -/
theorem aRunLeavesTheCodecAsItWas : Obligations.ARunLeavesTheCodecAsItWas := by
  intro s hidle
  obtain ⟨u, hrun, hend, hresults, hctr, hkeeps⟩ := run_program s.program s rfl
  rw [hrun]
  exact congrArg Host.Outcome.next (State.eq_of_idle (hkeeps hidle) hidle hend hresults hctr)

end Sys2Proof.Machine
end

section
/-! The extractions of the field rows, one at a time and all fourteen in any order (R153 to R166, R170; log entry 5). -/

namespace Sys2Proof.Machine

/-- The record with one field extracted from the buffer (R153 to R165, R170): what the extraction of `f` writes. -/
def extractField (w : List Byte) (h : Header Config.params) : Field → Header Config.params
  | .version            => { h with version := unpackVersion _ w }
  | .headerLength       => { h with headerLength := unpackHeaderLength _ w }
  | .dscp               => { h with dscp := unpackDscp _ w }
  | .ecn                => { h with ecn := unpackEcn _ w }
  | .totalLength        => { h with totalLength := unpackTotalLength w }
  | .identification     => { h with identification := unpackIdentification w }
  | .flags              => { h with flags := unpackFlags _ w }
  | .fragmentOffset     => { h with fragmentOffset := unpackFragmentOffset _ w }
  | .ttl                => { h with ttl := unpackTtl w }
  | .protocol           => { h with protocol := unpackProtocol w }
  | .headerChecksum     => { h with headerChecksum := unpackHeaderChecksum w }
  | .sourceAddress      => { h with sourceAddress := unpackSourceAddress w }
  | .destinationAddress => { h with destinationAddress := unpackDestinationAddress w }
  | .options            => { h with options := unpackOptions w (optionsLen w) }

/-- The checks that stand before the extraction of a field (R151, R168, R169). -/
def extractionError (w : List Byte) (f : Field) : Option DecodeError :=
  if f = .options then lengthError w else fixedPortionError w

theorem exec_fieldStep_decode (f : Field) (s : State) :
    exec (f.step .decode) s =
      .next (unpackStep (extractionError s.wIn f) (fun h => extractField s.wIn h f) s) := by
  cases f <;> rfl

theorem exec_fieldStep_decode_of_error {f : Field} {s : State} {e : DecodeError}
    (herr : extractionError s.wIn f = some e) : exec (f.step .decode) s = .next (raise e s) := by
  rw [exec_fieldStep_decode, herr, unpackStep_some]

theorem exec_fieldStep_decode_of_pass {f : Field} {s : State} (hpass : extractionError s.wIn f = none) :
    exec (f.step .decode) s = .next { s with hOut := extractField s.wIn s.hOut f, result := none } := by
  rw [exec_fieldStep_decode, hpass]
  rfl

theorem fieldValue_extractField (w : List Byte) (h : Header Config.params) (f g : Field) :
    fieldValue (extractField w h f) g =
      if g = f then fieldValue (extractHeader Config.params w) g else fieldValue h g := by
  cases f <;> cases g <;> rfl

theorem extractField_options (w : List Byte) (h : Header Config.params) (f : Field) :
    (extractField w h f).options =
      if .options = f then (extractHeader Config.params w).options else h.options := by
  cases f <;> rfl

theorem fixedPortionError_eq_none {w : List Byte} (h20 : 20 ≤ w.length) : fixedPortionError w = none :=
  if_neg (Nat.not_lt.2 h20)

/-- Settles O49: the one check of a scalar field passes, and `extractField` writes that field alone. -/
theorem extractingAFieldWritesOnlyIt : Obligations.ExtractingAFieldWritesOnlyIt := by
  intro s f hscalar h20
  have hpass : extractionError s.wIn f = none := (if_neg hscalar).trans (fixedPortionError_eq_none h20)
  have hvalue := fieldValue_extractField s.wIn s.hOut f
  refine ⟨_, exec_fieldStep_decode_of_pass hpass, ?_, fun i hi => ?_, fun g hg => ?_, ?_⟩
  · rw [hvalue, if_pos rfl]
    exact fieldValue_extractHeader_lt _ _ f
  · rw [hvalue, if_pos rfl]
    exact testBit_fieldValue_extractHeader _ _ hscalar hi
  · rw [hvalue, if_neg hg]
  · rw [extractField_options, if_neg hscalar.symm]

/-- Settles O50: where all three checks pass, the options are those of DECODE. -/
theorem extractingTheOptionsCopiesThem : Obligations.ExtractingTheOptionsCopiesThem := by
  intro s h20 h5 hlen
  have hpass : lengthError s.wIn = none := (lengthError_eq_none_iff _).2 ⟨h20, h5, hlen⟩
  rw [← extractHeader_options Config.params hpass]
  exact exec_fieldStep_decode_of_pass (f := .options) hpass

/-- Settles O51: every extraction makes the first check, that of the options all three. -/
theorem extractionsRaiseTheErrorsOfDecode : Obligations.ExtractionsRaiseTheErrorsOfDecode := by
  refine fun s => ⟨fun hlen f => ?_, fun h20 hwords => ?_, fun h20 h5 hlen => ?_⟩
  · refine exec_fieldStep_decode_of_error ?_
    rw [extractionError, (lengthError_eq_tooShort_iff _).2 hlen, fixedPortionError, if_pos hlen, ite_self]
  · exact exec_fieldStep_decode_of_error (f := .options)
      ((lengthError_eq_invalidHeaderLength_iff _).2 ⟨h20, hwords⟩)
  · exact exec_fieldStep_decode_of_error (f := .options)
      ((lengthError_eq_tooShortForOptions_iff _).2 ⟨h20, h5, hlen⟩)

/-- Where DECODE's checks all pass, so do those of every field. -/
theorem extractionError_eq_none {w : List Byte} (hpass : lengthError w = none) (f : Field) :
    extractionError w f = none := by
  obtain ⟨h20, -⟩ := (lengthError_eq_none_iff w).1 hpass
  rw [extractionError, hpass, fixedPortionError_eq_none h20, ite_self]

/-- Extractions one after another write the record one after another. -/
theorem runInstrs_extractions (f : Field) (fs : List Field) (s : State) (hpass : lengthError s.wIn = none) :
    runInstrs ((f :: fs).map fun f => f.step .decode) s =
      .next { s with hOut := (f :: fs).foldl (extractField s.wIn) s.hOut, result := none } := by
  induction fs generalizing f s with
  | nil => simp only [List.map, runInstrs, exec_fieldStep_decode_of_pass (extractionError_eq_none hpass f)]; rfl
  | cons g fs ih =>
    rw [List.map_cons, runInstrs, exec_fieldStep_decode_of_pass (extractionError_eq_none hpass f)]
    exact ih g { s with hOut := extractField s.wIn s.hOut f, result := none } hpass

/-- After the extractions of `fs` the fields of `fs` are DECODE's and the others as they were. -/
theorem fieldValue_foldl_extractField (w : List Byte) (fs : List Field) (h : Header Config.params) (g : Field) :
    fieldValue (fs.foldl (extractField w) h) g =
      if g ∈ fs then fieldValue (extractHeader Config.params w) g else fieldValue h g := by
  induction fs generalizing h with
  | nil => simp
  | cons f fs ih =>
    rw [List.foldl_cons, ih, fieldValue_extractField]
    by_cases hg : g ∈ fs <;> simp [hg]

theorem options_foldl_extractField (w : List Byte) (fs : List Field) (h : Header Config.params) :
    (fs.foldl (extractField w) h).options =
      if .options ∈ fs then (extractHeader Config.params w).options else h.options := by
  induction fs generalizing h with
  | nil => simp
  | cons f fs ih =>
    rw [List.foldl_cons, ih, extractField_options]
    by_cases hg : Field.options ∈ fs <;> simp [hg]

/-- A list of all fields has every field, and so a first one. -/
theorem mem_of_perm_all {fs : List Field} (hperm : fs.Perm Field.all) (f : Field) : f ∈ fs :=
  hperm.mem_iff.2 f.mem_all

/-- Settles O53: every field is extracted, so none is left as it was, whatever the order. -/
theorem extractingAllFieldsInAnyOrderIsDecode : Obligations.ExtractingAllFieldsInAnyOrderIsDecode := by
  intro s fs h hperm hok
  have hmem := mem_of_perm_all hperm
  obtain ⟨rfl, hpass, -⟩ := of_decodeWire_eq_ok hok
  have hrecord : fs.foldl (extractField s.wIn) s.hOut = extractHeader Config.params s.wIn :=
    header_ext (fun g => (fieldValue_foldl_extractField ..).trans (if_pos (hmem g)))
      ((options_foldl_extractField ..).trans (if_pos (hmem .options)))
  cases fs with
  | nil => exact absurd (hmem .version) List.not_mem_nil
  | cons f fs => rw [runInstrs_extractions f fs s hpass, hrecord]

end Sys2Proof.Machine
end

section
/-! The packing steps of the field rows, one at a time and all fourteen in any order (R85 to R98, R133; log entry 5). -/

namespace Sys2Proof.Machine

/-- The buffer with one field packed into it (R85 to R98): what the packing step of `f` writes. -/
def packField {p : Params} (h : Header p) (w : List Byte) : Field → List Byte
  | .version            => packVersion w h.version
  | .headerLength       => packHeaderLength w h.headerLength
  | .dscp               => packDscp w h.dscp
  | .ecn                => packEcn w h.ecn
  | .totalLength        => packTotalLength w h.totalLength
  | .identification     => packIdentification w h.identification
  | .flags              => packFlags w h.flags
  | .fragmentOffset     => packFragmentOffset w h.fragmentOffset
  | .ttl                => packTtl w h.ttl
  | .protocol           => packProtocol w h.protocol
  | .headerChecksum     => packHeaderChecksum w h.headerChecksum
  | .sourceAddress      => packSourceAddress w h.sourceAddress
  | .destinationAddress => packDestinationAddress w h.destinationAddress
  | .options            => packOptions w h.options

theorem exec_fieldStep_encode (f : Field) (s : State) :
    exec (f.step .encode) s = .next (packStep (fun w => packField s.hIn w f) s) := by
  cases f <;> rfl

@[simp] theorem packField_length {p : Params} (h : Header p) (w : List Byte) (f : Field) :
    (packField h w f).length = w.length := by
  cases f with
  | version | headerLength | dscp | ecn | flags => exact writeBits_length ..
  | fragmentOffset => exact (memWrite1_length ..).trans (writeBits_length ..)
  | ttl | protocol => exact memWrite1_length ..
  | totalLength | identification | headerChecksum => exact memWrite2_length ..
  | sourceAddress | destinationAddress => exact memWrite4_length ..
  | options => exact writeOptions_length ..

/-- Wire bits after a write of the low `n` bits of `v` that ends `lo` bits before the end of byte `a`; the first is at
position `first`. -/
theorem wireBit_writeBits_setWidth {m : Nat} (w : List Byte) (a lo n first : Nat) (v : BitVec m) (k : Nat)
    (ha : a < w.length) (hn : lo + n ≤ 8) (hfirst : first = 8 * a + (8 - lo - n)) :
    wireBit (writeBits w a lo (v.setWidth n)) k =
      if first ≤ k ∧ k < first + n then v.toNat.testBit (n - 1 - (k - first)) else wireBit w k := by
  rw [wireBit_writeBits w a lo _ k ha hn, ← hfirst, show 8 * a + (8 - lo) = first + n by omega]
  refine ite_congr rfl (fun hk => ?_) fun _ => rfl
  rw [getMsbD_eq_testBit _ (by omega), BitVec.toNat_setWidth, Nat.testBit_mod_two_pow, decide_eq_true (by omega),
    Bool.true_and]

theorem wireBit_memWrite1_testBit (w : List Byte) (a : Nat) (v : BitVec 8) (k : Nat) (ha : a < w.length) :
    wireBit (memWrite1 w a v) k =
      if 8 * a ≤ k ∧ k < 8 * a + 8 then v.toNat.testBit (8 - 1 - (k - 8 * a)) else wireBit w k := by
  rw [wireBit_memWrite1 w a v k ha]
  refine ite_congr (propext (by omega)) (fun hk => ?_) fun _ => rfl
  rw [getMsbD_eq_testBit _ (by omega), show k % 8 = k - 8 * a by omega]

theorem wireBit_memWrite2_testBit (w : List Byte) (a : Nat) (v : BitVec 16) (k : Nat) (ha : a + 1 < w.length) :
    wireBit (memWrite2 w a v) k =
      if 8 * a ≤ k ∧ k < 8 * a + 16 then v.toNat.testBit (16 - 1 - (k - 8 * a)) else wireBit w k := by
  rw [wireBit_memWrite2 w a v k ha]
  exact ite_congr rfl (fun hk => getMsbD_eq_testBit v (by omega)) fun _ => rfl

theorem wireBit_memWrite4_testBit (w : List Byte) (a : Nat) (v : BitVec 32) (k : Nat) (ha : a + 3 < w.length) :
    wireBit (memWrite4 w a v) k =
      if 8 * a ≤ k ∧ k < 8 * a + 32 then v.toNat.testBit (32 - 1 - (k - 8 * a)) else wireBit w k := by
  rw [wireBit_memWrite4 w a v k ha]
  exact ite_congr rfl (fun hk => getMsbD_eq_testBit v (by omega)) fun _ => rfl

theorem testBit_extractLsb' {n lo m j : Nat} (v : BitVec n) (hj : j < m) :
    (v.extractLsb' lo m).toNat.testBit j = v.toNat.testBit (lo + j) := by
  rw [BitVec.testBit_toNat, BitVec.getLsbD_extractLsb', decide_eq_true hj, Bool.true_and, BitVec.testBit_toNat]

/-- R92: the five high bits of the thirteen go into byte 6, the eight low ones into byte 7. -/
theorem wireBit_packFragmentOffset {n : Nat} (w : List Byte) (v : BitVec n) (k : Nat) (hw : 20 ≤ w.length) :
    wireBit (packFragmentOffset w v) k =
      if 51 ≤ k ∧ k < 51 + 13 then v.toNat.testBit (13 - 1 - (k - 51)) else wireBit w k := by
  rw [packFragmentOffset, wireBit_memWrite1_testBit _ _ _ _ (by rw [writeBits_length]; omega),
    wireBit_writeBits _ _ _ _ _ (by omega) (by decide)]
  by_cases hlow : 56 ≤ k ∧ k < 64
  · rw [if_pos (by omega), if_pos (by omega), testBit_extractLsb' v (by omega)]
    congr 1; omega
  rw [if_neg (by omega)]
  by_cases hhigh : 51 ≤ k ∧ k < 56
  · rw [if_pos (by omega), if_pos (by omega), getMsbD_eq_testBit _ (by omega), testBit_extractLsb' v (by omega)]
    congr 1; omega
  · rw [if_neg (by omega), if_neg (by omega)]

/-- A scalar field's packing step writes the field's bits at its positions and no other bit. -/
theorem wireBit_packField {p : Params} (h : Header p) (w : List Byte) (f : Field) (k : Nat) (hscalar : f ≠ .options)
    (hw : 20 ≤ w.length) :
    wireBit (packField h w f) k =
      if f.first ≤ k ∧ k < f.first + f.width then (fieldValue h f).testBit (f.width - 1 - (k - f.first))
      else wireBit w k := by
  cases f with
  | version => exact wireBit_writeBits_setWidth w 0 4 4 0 _ k (by omega) (by decide) rfl
  | headerLength => exact wireBit_writeBits_setWidth w 0 0 4 4 _ k (by omega) (by decide) rfl
  | dscp => exact wireBit_writeBits_setWidth w 1 2 6 8 _ k (by omega) (by decide) rfl
  | ecn => exact wireBit_writeBits_setWidth w 1 0 2 14 _ k (by omega) (by decide) rfl
  | flags => exact wireBit_writeBits_setWidth w 6 5 3 48 _ k (by omega) (by decide) rfl
  | fragmentOffset => exact wireBit_packFragmentOffset w _ k hw
  | ttl => exact wireBit_memWrite1_testBit w 8 _ k (by omega)
  | protocol => exact wireBit_memWrite1_testBit w 9 _ k (by omega)
  | totalLength => exact wireBit_memWrite2_testBit w 2 _ k (by omega)
  | identification => exact wireBit_memWrite2_testBit w 4 _ k (by omega)
  | headerChecksum => exact wireBit_memWrite2_testBit w 10 _ k (by omega)
  | sourceAddress => exact wireBit_memWrite4_testBit w 12 _ k (by omega)
  | destinationAddress => exact wireBit_memWrite4_testBit w 16 _ k (by omega)
  | options => exact absurd rfl hscalar

/-- R98 on a buffer of the right size: the twenty bytes of the fixed portion stay, and the options follow. -/
theorem packOptions_eq {w options : List Byte} (hw : w.length = 20 + options.length) :
    packOptions w options = w.take 20 ++ options := by
  rw [packOptions, writeOptions_eq _ _ _ hw.ge, ← hw, List.drop_length, List.append_nil]

/-- A buffer that grows keeps the bits that it has. -/
theorem wireBit_fitBuffer (c n : Nat) {w : List Byte} {k : Nat} (hk : k < 8 * w.length) (hn : k < 8 * n) :
    wireBit (fitBuffer c n w) k = wireBit w k := by
  rw [wireBit, memRead1_fitBuffer c n w _ (by omega) (by omega), wireBit]

/-- Settles O47: the buffer is brought to its size, which keeps its bits, and the field's own are written. -/
theorem packingAFieldWritesExactlyItsBits : Obligations.PackingAFieldWritesExactlyItsBits := by
  intro s f hscalar
  have hbit (k : Nat) := wireBit_packField s.hIn (fitBuffer s.freeCtr (20 + s.hIn.options.length) s.wOut) f k hscalar
    (by simp)
  refine ⟨_, exec_fieldStep_encode f s, by simp, fun i hi => ?_, fun k hcovers hk hn => ?_⟩
  · rw [hbit, if_pos ⟨Nat.le_add_right .., Nat.add_lt_add_left hi _⟩, Nat.add_sub_cancel_left]
  · have hout : ¬ (f.first ≤ k ∧ k < f.first + f.width) := by rw [← f.covers_iff, hcovers]; decide
    rw [hbit, if_neg hout, wireBit_fitBuffer _ _ hk hn]

/-- Settles O48: the buffer is brought to its size, which keeps its bytes, and the options are written after the first
twenty. -/
theorem packingTheOptionsCopiesThem : Obligations.PackingTheOptionsCopiesThem := by
  intro s
  have hpacked := packOptions_eq (w := fitBuffer s.freeCtr (20 + s.hIn.options.length) s.wOut) (fitBuffer_length ..)
  refine ⟨_, exec_fieldStep_encode .options s, by simp, ?_, fun a ha hlen => ?_⟩
  · change (packOptions _ _).drop 20 = _
    rw [hpacked, List.drop_left' (by simp)]
  · change (packOptions _ _)[a]? = _
    rw [hpacked, List.getElem?_append_left (by simp; omega), List.getElem?_take_of_lt ha, fitBuffer,
      List.getElem?_append_left (by simp; omega), List.getElem?_take_of_lt (by omega)]

/-! ### All packing steps, in any order (R133) -/

/-- The wire bits that the packing step of `f` writes: the field's own, or all from offset 20 on. -/
def PackWrites (f : Field) (k : Nat) : Prop := if f = .options then 160 ≤ k else f.first ≤ k ∧ k < f.first + f.width

/-- Every bit is written by some field's packing step. -/
theorem exists_packWrites (k : Nat) : ∃ f : Field, PackWrites f k := by
  by_cases hk : k < 160
  · obtain ⟨f, hscalar, i, hi, rfl⟩ := exists_field_bit hk
    exact ⟨f, by rw [PackWrites, if_neg hscalar]; omega⟩
  · exact ⟨.options, by rw [PackWrites, if_pos rfl]; omega⟩

/-- From offset 20 on a read is of what follows the first twenty bytes. -/
theorem wireBit_append_of_ge {v v' : List Byte} (t : List Byte) {k : Nat} (hv : v.length = 20) (hv' : v'.length = 20)
    (hk : 160 ≤ k) : wireBit (v ++ t) k = wireBit (v' ++ t) k := by
  simp only [wireBit, memRead1, List.getD_eq_getElem?_getD]
  rw [List.getElem?_append_right (by omega), List.getElem?_append_right (by omega), hv, hv']

/-- Every bit that a packing step writes is that of ENCODE(H). -/
theorem wireBit_packField_of_packWrites {p : Params} (h : Header p) {w : List Byte} {f : Field} {k : Nat}
    (hw : w.length = 20 + h.options.length) (hk : PackWrites f k) :
    wireBit (packField h w f) k = wireBit (encodeHeader h) k := by
  by_cases hscalar : f = .options
  · subst hscalar
    change wireBit (packOptions w h.options) k = _
    rw [packOptions_eq hw, encodeHeader_eq]
    exact wireBit_append_of_ge _ (by simp; omega) (fixedBytes_length h) hk
  · rw [PackWrites, if_neg hscalar] at hk
    rw [wireBit_packField h w f k hscalar (by omega), if_pos hk,
      ← encodePlacesEveryFieldBit p h f _ hscalar (by omega), Nat.add_sub_cancel' hk.1]

/-- Every other bit stays. -/
theorem wireBit_packField_of_not_packWrites {p : Params} (h : Header p) {w : List Byte} {f : Field} {k : Nat}
    (hw : w.length = 20 + h.options.length) (hk : ¬ PackWrites f k) :
    wireBit (packField h w f) k = wireBit w k := by
  by_cases hscalar : f = .options
  · subst hscalar
    have hfixed : k < 8 * 20 := Nat.lt_of_not_le hk
    change wireBit (packOptions w h.options) k = _
    rw [packOptions_eq hw, wireBit_append _ (by simp; omega), wireBit_take w hfixed]
  · rw [PackWrites, if_neg hscalar] at hk
    rw [wireBit_packField h w f k hscalar (by omega), if_neg hk]

theorem foldl_packField_length {p : Params} (h : Header p) (fs : List Field) (w : List Byte) :
    (fs.foldl (packField h) w).length = w.length := by
  induction fs generalizing w with
  | nil => rfl
  | cons f fs ih => rw [List.foldl_cons, ih, packField_length]

/-- A bit that one of the packing steps writes, or that was ENCODE(H)'s before them, is ENCODE(H)'s after them. -/
theorem wireBit_foldl_packField {p : Params} (h : Header p) (fs : List Field) {w : List Byte} {k : Nat}
    (hw : w.length = 20 + h.options.length)
    (hk : wireBit w k = wireBit (encodeHeader h) k ∨ ∃ f ∈ fs, PackWrites f k) :
    wireBit (fs.foldl (packField h) w) k = wireBit (encodeHeader h) k := by
  induction fs generalizing w with
  | nil => simpa using hk
  | cons f fs ih =>
    refine ih ((packField_length h w f).trans hw) ?_
    by_cases hf : PackWrites f k
    · exact .inl (wireBit_packField_of_packWrites h hw hf)
    · rw [wireBit_packField_of_not_packWrites h hw hf]
      simpa [hf] using hk

theorem fitBuffer_eq_self {c n : Nat} {w : List Byte} (hw : w.length = n) : fitBuffer c n w = w := by
  rw [← hw, fitBuffer_of_length]

/-- Packing steps one after another bring the buffer to its size once and then write it one after another. -/
theorem runInstrs_packings (f : Field) (fs : List Field) (s : State) :
    runInstrs ((f :: fs).map fun f => f.step .encode) s =
      .next { s with
        wOut := (f :: fs).foldl (packField s.hIn) (fitBuffer s.freeCtr (20 + s.hIn.options.length) s.wOut),
        result := none } := by
  induction fs generalizing f s with
  | nil => simp only [List.map, runInstrs, exec_fieldStep_encode]; rfl
  | cons g fs ih =>
    rw [List.map_cons, runInstrs, exec_fieldStep_encode]
    refine (ih g (packStep (fun w => packField s.hIn w f) s)).trans ?_
    rw [fitBuffer_eq_self (by simp)]
    rfl

/-- Settles O52: every bit of the buffer is written by some packing step, as ENCODE's, and by none otherwise. -/
theorem packingAllFieldsInAnyOrderIsEncode : Obligations.PackingAllFieldsInAnyOrderIsEncode := by
  intro s fs hperm
  have hmem := mem_of_perm_all hperm
  have hbuffer : fs.foldl (packField s.hIn) (fitBuffer s.freeCtr (20 + s.hIn.options.length) s.wOut) =
      encodeHeader s.hIn := by
    refine ext_wireBit (by simp [foldl_packField_length]) fun k _ => ?_
    obtain ⟨f, hf⟩ := exists_packWrites k
    exact wireBit_foldl_packField s.hIn fs (fitBuffer_length ..) (.inr ⟨f, hmem f, hf⟩)
  cases fs with
  | nil => exact absurd (hmem .version) List.not_mem_nil
  | cons f fs => rw [runInstrs_packings f fs s, hbuffer]

end Sys2Proof.Machine
end
